-- ==== Sys2Proof/Word.lean ====
section
/-! DEFINITION. The words of the machine: the 64-bit register value, the byte, the 4-bit field of an
encoding and the index of a register (spec 00_scope.md R8, R12; 10_state.md R21). -/

namespace Sys2Proof

/-- A register value: an unsigned 64-bit integer (R8, R12). Its `+`, `-` and `*` wrap modulo 2^64. -/
abbrev Word := BitVec 64

/-- The unit of memory and of the instruction stream (R8, R60). -/
abbrev Byte := BitVec 8

/-- A 4-bit field of an encoding: an opcode nibble or a raw register field, 0..15 (R8, R14). -/
abbrev Nibble := BitVec 4

/-- A validated register index, 0..12 (R21, R28). -/
abbrev RegIndex := Fin 13

end Sys2Proof
end

