-- ==== Sys2Proof/Syntax.lean ====
section
/-! DEFINITION. The instructions: one constructor per row of spec/opcode_table.json (30_encoding.md R66 to
R68). A register operand is the raw 4-bit field of the encoding, since fields 13..15 decode normally (R72)
and are validated by the running instruction (R83). An unused nibble `_` is no part of an instruction: any
value of it decodes identically (R71). A stop-space row carries the opcode bits its mask leaves open, so
that every opcode byte is exactly one instruction. -/

namespace Sys2Proof

/-- The instruction set (R2, R66 to R68). Fields are named as in R14: `a`, `b` sources, `o` output,
`r` remainder destination. -/
inductive Instr where
  /-- INVALID, opcode 0x00 (R86). -/
  | invalid
  /-- ADD, 0x01 (R90). -/
  | add (a b o : Nibble)
  /-- SUB, 0x11 (R91). -/
  | sub (a b o : Nibble)
  /-- MUL, 0x21 (R92). -/
  | mul (a b o : Nibble)
  /-- DIVMOD, 0x31 (R93). -/
  | divmod (a b o r : Nibble)
  /-- AND, 0x41 (R94). -/
  | and (a b o : Nibble)
  /-- OR, 0x51 (R95). -/
  | or (a b o : Nibble)
  /-- XOR, 0x61 (R96). -/
  | xor (a b o : Nibble)
  /-- NOT, 0x71 (R97). -/
  | not (a o : Nibble)
  /-- COPY, 0x02 (R110). -/
  | copy (a b : Nibble)
  /-- LOAD, 0x12 (R111). -/
  | load (a : Nibble) (imm : Word)
  /-- READ, 0x22 (R112). -/
  | read (a b : Nibble)
  /-- WRITE, 0x32 (R113). -/
  | write (a b : Nibble)
  /-- PUSH, 0x42 (R114). -/
  | push (a : Nibble)
  /-- POP, 0x52 (R115). -/
  | pop (a : Nibble)
  /-- HALT, 0x03 (R130). -/
  | halt
  /-- CALL, 0x13 (R131). -/
  | call (a : Nibble)
  /-- STOP_INVALID_INVALID, row 00010000: opcode 0x10 (R87). -/
  | stopInvalidInvalid1
  /-- STOP_INVALID_INVALID, row 001x0000: opcodes 0x20, 0x30 (R87). -/
  | stopInvalidInvalid2 (x : BitVec 1)
  /-- STOP_INVALID_INVALID, row 01xx0000: opcodes 0x40..0x70 (R87). -/
  | stopInvalidInvalid4 (x : BitVec 2)
  /-- STOP_INVALID_INVALID, row 1xxx0000: opcodes 0x80..0xF0 (R87). -/
  | stopInvalidInvalid8 (x : BitVec 3)
  /-- STOP_INVALID_ARITHMETIC, row 1xxx0001: opcodes 0x81..0xF1 (R98). -/
  | stopInvalidArithmetic8 (x : BitVec 3)
  /-- STOP_INVALID_MEMORY, row 011x0010: opcodes 0x62, 0x72 (R116). -/
  | stopInvalidMemory6 (x : BitVec 1)
  /-- STOP_INVALID_MEMORY, row 1xxx0010: opcodes 0x82..0xF2 (R116). -/
  | stopInvalidMemory8 (x : BitVec 3)
  /-- STOP_INVALID_CONTROLFLOW, row 001x0011: opcodes 0x23, 0x33 (R132). -/
  | stopInvalidControlFlow2 (x : BitVec 1)
  /-- STOP_INVALID_CONTROLFLOW, row 01xx0011: opcodes 0x43..0x73 (R132). -/
  | stopInvalidControlFlow4 (x : BitVec 2)
  /-- STOP_INVALID_CONTROLFLOW, row 1xxx0011: opcodes 0x83..0xF3 (R132). -/
  | stopInvalidControlFlow8 (x : BitVec 3)
  /-- STOP_INVALID_CATEGORY, row xxxx01xx: every category 0x4..0x7 (R88). -/
  | stopInvalidCategory4 (ins : Nibble) (x : BitVec 2)
  /-- STOP_INVALID_CATEGORY, row xxxx1xxx: every category 0x8..0xF (R88). -/
  | stopInvalidCategory8 (ins : Nibble) (x : BitVec 3)
deriving DecidableEq, Repr

/-- The mnemonic of an instruction's row in spec/opcode_table.json. -/
def mnemonic : Instr → String
  | .invalid => "INVALID"
  | .add _ _ _ => "ADD"
  | .sub _ _ _ => "SUB"
  | .mul _ _ _ => "MUL"
  | .divmod _ _ _ _ => "DIVMOD"
  | .and _ _ _ => "AND"
  | .or _ _ _ => "OR"
  | .xor _ _ _ => "XOR"
  | .not _ _ => "NOT"
  | .copy _ _ => "COPY"
  | .load _ _ => "LOAD"
  | .read _ _ => "READ"
  | .write _ _ => "WRITE"
  | .push _ => "PUSH"
  | .pop _ => "POP"
  | .halt => "HALT"
  | .call _ => "CALL"
  | .stopInvalidInvalid1 => "STOP_INVALID_INVALID"
  | .stopInvalidInvalid2 _ => "STOP_INVALID_INVALID"
  | .stopInvalidInvalid4 _ => "STOP_INVALID_INVALID"
  | .stopInvalidInvalid8 _ => "STOP_INVALID_INVALID"
  | .stopInvalidArithmetic8 _ => "STOP_INVALID_ARITHMETIC"
  | .stopInvalidMemory6 _ => "STOP_INVALID_MEMORY"
  | .stopInvalidMemory8 _ => "STOP_INVALID_MEMORY"
  | .stopInvalidControlFlow2 _ => "STOP_INVALID_CONTROLFLOW"
  | .stopInvalidControlFlow4 _ => "STOP_INVALID_CONTROLFLOW"
  | .stopInvalidControlFlow8 _ => "STOP_INVALID_CONTROLFLOW"
  | .stopInvalidCategory4 _ _ => "STOP_INVALID_CATEGORY"
  | .stopInvalidCategory8 _ _ => "STOP_INVALID_CATEGORY"

/-! The pseudo-instructions of R75: other spellings of COPY, LOAD and SUB, with the register aliases of R22. -/

/-- `nop` is `copy r0, r0` (R75). -/
def Pseudo.nop : Instr := .copy 0 0
/-- `ret` is `copy ra, ip` (R75). -/
def Pseudo.ret : Instr := .copy 2 1
/-- `jr rA` is `copy rA, ip` (R75). -/
def Pseudo.jr (a : Nibble) : Instr := .copy a 1
/-- `jmp imm` is `load ip, imm` (R75). -/
def Pseudo.jmp (imm : Word) : Instr := .load 1 imm
/-- `zero rO` is `copy r0, rO` (R75). -/
def Pseudo.zero (o : Nibble) : Instr := .copy 0 o
/-- `neg rA, rO` is `sub r0, rA, rO` (R75). -/
def Pseudo.neg (a o : Nibble) : Instr := .sub 0 a o

end Sys2Proof
end

