-- ==== Sys2Proof/WellFormed.lean ====
section
/-! DEFINITION. Well-formed instructions: every register field the instruction uses names a register,
that is, it is 0..12 (10_state.md R28). An ill-formed instruction still encodes, decodes and runs: it raises
InvalidRegisterIndex (R72, R83). -/

namespace Sys2Proof

/-- The register fields an instruction uses, in the order R83 validates them: a, b, o, r. -/
def usedFields : Instr → List Nibble
  | .invalid => []
  | .add a b o => [a, b, o]
  | .sub a b o => [a, b, o]
  | .mul a b o => [a, b, o]
  | .divmod a b o r => [a, b, o, r]
  | .and a b o => [a, b, o]
  | .or a b o => [a, b, o]
  | .xor a b o => [a, b, o]
  | .not a o => [a, o]
  | .copy a b => [a, b]
  | .load a _ => [a]
  | .read a b => [a, b]
  | .write a b => [a, b]
  | .push a => [a]
  | .pop a => [a]
  | .halt => []
  | .call a => [a]
  | .stopInvalidInvalid1 => []
  | .stopInvalidInvalid2 _ => []
  | .stopInvalidInvalid4 _ => []
  | .stopInvalidInvalid8 _ => []
  | .stopInvalidArithmetic8 _ => []
  | .stopInvalidMemory6 _ => []
  | .stopInvalidMemory8 _ => []
  | .stopInvalidControlFlow2 _ => []
  | .stopInvalidControlFlow4 _ => []
  | .stopInvalidControlFlow8 _ => []
  | .stopInvalidCategory4 _ _ => []
  | .stopInvalidCategory8 _ _ => []

/-- A field names a register (R28). -/
def fieldValid (n : Nibble) : Bool := decide (n.toNat < 13)

/-- The check: every used register field names a register. -/
def wellFormed (i : Instr) : Bool := (usedFields i).all fieldValid

/-- An instruction whose used register fields all name registers. -/
abbrev WellFormed (i : Instr) : Prop := wellFormed i = true

/-- The first field of a list that names no register: the one R83 reports. -/
def firstInvalid (fields : List Nibble) : Option Nibble := fields.find? fun n => !fieldValid n

/-- The field that names a register. -/
def fieldOf (i : RegIndex) : Nibble := BitVec.ofNat 4 i.val

end Sys2Proof
end

