-- ==== Sys2Proof/Decode.lean ====
section
/-! DEFINITION. Decoding and encoding (30_encoding.md R60 to R73; 40_step_cycle.md R84), with the bit-field
and byte-order helpers they use. The decoder is total: it rejects, by name, only a byte list that ends
before the instruction does. -/

namespace Sys2Proof

/-- `v[3:0]` of a byte (R12): the category of an opcode (R61), the first field of an operand byte (R62). -/
def lowNibble (b : Byte) : Nibble := b.extractLsb' 0 4

/-- `v[7:4]` of a byte (R12): the instruction number of an opcode (R61), the second field of an operand byte (R62). -/
def highNibble (b : Byte) : Nibble := b.extractLsb' 4 4

/-- The byte `{hi, lo}` (R12). -/
def nibblePair (hi lo : Nibble) : Byte := hi ++ lo

/-- The value of bytes stored little-endian, least significant first (R45, R47, R64). -/
def wordOfBytes : List Byte → Word
  | [] => 0
  | b :: bs => (wordOfBytes bs <<< 8) ||| b.setWidth 64

/-- The 8 bytes of a value, least significant first: byte i is bits 8i+7..8i (R46, R47). -/
def bytesOfWord (v : Word) : List Byte := (List.range 8).map fun i => v.extractLsb' (8 * i) 8

/-- The formats of R63. -/
inductive Format where
  | n | r1 | r2 | r3 | r4 | ri
deriving DecidableEq, Repr

/-- The number of operand bytes after the opcode (R63). -/
def Format.operands : Format → Nat
  | .n => 0
  | .r1 => 1
  | .r2 => 1
  | .r3 => 2
  | .r4 => 2
  | .ri => 9

/-- The format an opcode byte selects (R63, R66); every stop encoding has format N (R67, R68). -/
def formatOf (op : Byte) : Format :=
  match (lowNibble op).toNat, (highNibble op).toNat with
  | 1, 0 => .r3
  | 1, 1 => .r3
  | 1, 2 => .r3
  | 1, 3 => .r4
  | 1, 4 => .r3
  | 1, 5 => .r3
  | 1, 6 => .r3
  | 1, 7 => .r2
  | 2, 0 => .r2
  | 2, 1 => .ri
  | 2, 2 => .r2
  | 2, 3 => .r2
  | 2, 4 => .r1
  | 2, 5 => .r1
  | 3, 1 => .r1
  | _, _ => .n

/-- The number of operand bytes an opcode byte is followed by (R65). -/
def operandCount (op : Byte) : Nat := (formatOf op).operands

/-- The length in bytes of the instruction an opcode byte begins (R65). -/
def lengthOf (op : Byte) : Nat := operandCount op + 1

/-- The instruction of an opcode byte and its operand bytes: the dispatch of R84 on the category `op[3:0]`
and then on the instruction number `op[7:4]` (R61), with the fields placed by R62 to R64 and R66 to R68.
The lone register field is the low nibble (D2). -/
def instrOf (op : Byte) (ops : List Byte) : Instr :=
  let a := lowNibble (ops.getD 0 0)
  let b := highNibble (ops.getD 0 0)
  let o := lowNibble (ops.getD 1 0)
  let r := highNibble (ops.getD 1 0)
  match (lowNibble op).toNat with
  | 0 =>
    match (highNibble op).toNat with
    | 0 => .invalid
    | 1 => .stopInvalidInvalid1
    | n =>
      if n < 4 then .stopInvalidInvalid2 (op.extractLsb' 4 1)
      else if n < 8 then .stopInvalidInvalid4 (op.extractLsb' 4 2)
      else .stopInvalidInvalid8 (op.extractLsb' 4 3)
  | 1 =>
    match (highNibble op).toNat with
    | 0 => .add a b o
    | 1 => .sub a b o
    | 2 => .mul a b o
    | 3 => .divmod a b o r
    | 4 => .and a b o
    | 5 => .or a b o
    | 6 => .xor a b o
    | 7 => .not a b
    | _ => .stopInvalidArithmetic8 (op.extractLsb' 4 3)
  | 2 =>
    match (highNibble op).toNat with
    | 0 => .copy a b
    | 1 => .load a (wordOfBytes (ops.drop 1))
    | 2 => .read a b
    | 3 => .write a b
    | 4 => .push a
    | 5 => .pop a
    | n =>
      if n < 8 then .stopInvalidMemory6 (op.extractLsb' 4 1)
      else .stopInvalidMemory8 (op.extractLsb' 4 3)
  | 3 =>
    match (highNibble op).toNat with
    | 0 => .halt
    | 1 => .call a
    | n =>
      if n < 4 then .stopInvalidControlFlow2 (op.extractLsb' 4 1)
      else if n < 8 then .stopInvalidControlFlow4 (op.extractLsb' 4 2)
      else .stopInvalidControlFlow8 (op.extractLsb' 4 3)
  | c =>
    if c < 8 then .stopInvalidCategory4 (highNibble op) (op.extractLsb' 0 2)
    else .stopInvalidCategory8 (highNibble op) (op.extractLsb' 0 3)

/-- Why a byte list is not an instruction. -/
inductive DecodeError where
  /-- There is no opcode byte. -/
  | empty
  /-- The list ends before the operand bytes the opcode calls for. -/
  | truncated (op : Byte) (need got : Nat)
deriving DecidableEq, Repr

/-- The instruction at the head of a byte list, with the bytes after it (R65, R73). -/
def decode : List Byte → Except DecodeError (Instr × List Byte)
  | [] => .error .empty
  | op :: rest =>
    if rest.length < operandCount op then .error (.truncated op (operandCount op) rest.length)
    else .ok (instrOf op (rest.take (operandCount op)), rest.drop (operandCount op))

/-- The bytes of an instruction in address order (R63, R66 to R68), with every unused nibble zero: the
canonical encoding of R71. -/
def encode : Instr → List Byte
  | .invalid => [0x00]
  | .add a b o => [0x01, nibblePair b a, nibblePair 0 o]
  | .sub a b o => [0x11, nibblePair b a, nibblePair 0 o]
  | .mul a b o => [0x21, nibblePair b a, nibblePair 0 o]
  | .divmod a b o r => [0x31, nibblePair b a, nibblePair r o]
  | .and a b o => [0x41, nibblePair b a, nibblePair 0 o]
  | .or a b o => [0x51, nibblePair b a, nibblePair 0 o]
  | .xor a b o => [0x61, nibblePair b a, nibblePair 0 o]
  | .not a o => [0x71, nibblePair o a]
  | .copy a b => [0x02, nibblePair b a]
  | .load a imm => 0x12 :: nibblePair 0 a :: bytesOfWord imm
  | .read a b => [0x22, nibblePair b a]
  | .write a b => [0x32, nibblePair b a]
  | .push a => [0x42, nibblePair 0 a]
  | .pop a => [0x52, nibblePair 0 a]
  | .halt => [0x03]
  | .call a => [0x13, nibblePair 0 a]
  | .stopInvalidInvalid1 => [0x10]
  | .stopInvalidInvalid2 x => [nibblePair (0b001#3 ++ x) 0x0]
  | .stopInvalidInvalid4 x => [nibblePair (0b01#2 ++ x) 0x0]
  | .stopInvalidInvalid8 x => [nibblePair (0b1#1 ++ x) 0x0]
  | .stopInvalidArithmetic8 x => [nibblePair (0b1#1 ++ x) 0x1]
  | .stopInvalidMemory6 x => [nibblePair (0b011#3 ++ x) 0x2]
  | .stopInvalidMemory8 x => [nibblePair (0b1#1 ++ x) 0x2]
  | .stopInvalidControlFlow2 x => [nibblePair (0b001#3 ++ x) 0x3]
  | .stopInvalidControlFlow4 x => [nibblePair (0b01#2 ++ x) 0x3]
  | .stopInvalidControlFlow8 x => [nibblePair (0b1#1 ++ x) 0x3]
  | .stopInvalidCategory4 ins x => [nibblePair ins (0b01#2 ++ x)]
  | .stopInvalidCategory8 ins x => [nibblePair ins (0b1#1 ++ x)]

/-- An encoding with its unused nibble cleared: the canonical encoding of the same instruction (R71). The
unused nibble is the high nibble of byte 1 in the formats R1 and RI, and of byte 2 in R3 (R63). -/
def canonical : List Byte → List Byte
  | [] => []
  | op :: ops =>
    match formatOf op, ops with
    | .r1, [b1] => [op, nibblePair 0 (lowNibble b1)]
    | .r3, [b1, b2] => [op, b1, nibblePair 0 (lowNibble b2)]
    | .ri, b1 :: imm => op :: nibblePair 0 (lowNibble b1) :: imm
    | _, _ => op :: ops

/-- One row of the opcode table: a byte `op` selects the row when `op &&& mask = value` (30_encoding.md's opening). -/
structure OpcodeRow where
  mnemonic : String
  value : Byte
  mask : Byte
  length : Nat
deriving DecidableEq, Repr

/-- A row selects an opcode byte. -/
def OpcodeRow.selects (row : OpcodeRow) (op : Byte) : Bool := decide (op &&& row.mask = row.value)

/-- The 17 defined encodings (R66). -/
def definedRows : List OpcodeRow :=
  [⟨"INVALID", 0x00, 0xFF, 1⟩, ⟨"ADD", 0x01, 0xFF, 3⟩, ⟨"SUB", 0x11, 0xFF, 3⟩,
   ⟨"MUL", 0x21, 0xFF, 3⟩, ⟨"DIVMOD", 0x31, 0xFF, 3⟩, ⟨"AND", 0x41, 0xFF, 3⟩,
   ⟨"OR", 0x51, 0xFF, 3⟩, ⟨"XOR", 0x61, 0xFF, 3⟩, ⟨"NOT", 0x71, 0xFF, 2⟩,
   ⟨"COPY", 0x02, 0xFF, 2⟩, ⟨"LOAD", 0x12, 0xFF, 10⟩, ⟨"READ", 0x22, 0xFF, 2⟩,
   ⟨"WRITE", 0x32, 0xFF, 2⟩, ⟨"PUSH", 0x42, 0xFF, 2⟩, ⟨"POP", 0x52, 0xFF, 2⟩,
   ⟨"HALT", 0x03, 0xFF, 1⟩, ⟨"CALL", 0x13, 0xFF, 2⟩]

/-- The 12 rows of the stop spaces (R67, R68). -/
def stopRows : List OpcodeRow :=
  [⟨"STOP_INVALID_INVALID", 0x10, 0xFF, 1⟩, ⟨"STOP_INVALID_INVALID", 0x20, 0xEF, 1⟩,
   ⟨"STOP_INVALID_INVALID", 0x40, 0xCF, 1⟩, ⟨"STOP_INVALID_INVALID", 0x80, 0x8F, 1⟩,
   ⟨"STOP_INVALID_ARITHMETIC", 0x81, 0x8F, 1⟩, ⟨"STOP_INVALID_MEMORY", 0x62, 0xEF, 1⟩,
   ⟨"STOP_INVALID_MEMORY", 0x82, 0x8F, 1⟩, ⟨"STOP_INVALID_CONTROLFLOW", 0x23, 0xEF, 1⟩,
   ⟨"STOP_INVALID_CONTROLFLOW", 0x43, 0xCF, 1⟩, ⟨"STOP_INVALID_CONTROLFLOW", 0x83, 0x8F, 1⟩,
   ⟨"STOP_INVALID_CATEGORY", 0x04, 0x0C, 1⟩, ⟨"STOP_INVALID_CATEGORY", 0x08, 0x08, 1⟩]

/-- The opcode table of the spec. -/
def opcodeTable : List OpcodeRow := definedRows ++ stopRows

/-- The bytes of a table word: bit 0 is the least significant bit of the first byte. Everything above
`nbits` is zero, up to the longest instruction, 10 bytes (R65). -/
def tableBytes (nbits w : Nat) : List Byte :=
  (List.range 10).map fun k => BitVec.ofNat 8 (w % 2 ^ nbits / 2 ^ (8 * k))

/-- The instruction the decoder reads from a word numbered as spec/opcode_table.json numbers it. -/
def decodeTableWord (nbits w : Nat) : Option Instr :=
  match decode (tableBytes nbits w) with
  | .ok (i, _) => some i
  | .error _ => none

end Sys2Proof
end

