-- ==== Sys2Proof/Config.lean ====
section
/-! DEFINITION. What an implementation fixes. The spec leaves two parameters OPEN (R6 MEM_SIZE, R7
START_ADDRESS; 92_eei_decisions.md D16, D17): every operation takes the memory size from the state and
RESET takes both as arguments (`Machine.State.resetWith`); the two constants below only say which RESET
the constant `Machine.State.reset` stands for. The spec leaves no value of an instruction open, so there
is no free value. -/

namespace Sys2Proof.Config

/-- The MEM_SIZE of `Machine.State.reset`: the largest that R6 allows, 2^64 - 1 bytes.
DESIGN CHOICE (log 1), unsafe: the spec gives no size. -/
def memSize : Word := 0xFFFFFFFFFFFFFFFF#64

/-- The START_ADDRESS of `Machine.State.reset`. DESIGN CHOICE (log 2), unsafe: the spec gives none. -/
def startAddress : Word := 0#64

/-- What a byte of memory that nothing has written reads as: memory is zero-initialised (R39, R40, R170). -/
def unlistedByte : Byte := 0#8

end Sys2Proof.Config
end

