-- ==== Sys2Proof/Machine/State.lean ====
section
/-! DEFINITION. The state of the CORE (10_state.md R20): the register file, the memory and the fault latch,
with MEM_SIZE, which RESET fixes (R6), and the answer on the STEP port (00_scope.md R9), which is the
model's own field. All of it plain data. -/

namespace Sys2Proof.Machine

/-- The fault kinds of R142, each with the info it carries (D11). Raising one is an effect of the machine:
it sets the fault latch (R146). As the outcome `.fault` of a step it means that the latch was already set,
so the step changed nothing and the machine never goes on without RESET (R38, R146). Only `step` raises it. -/
inductive Fault where
  /-- A byte access at an address >= MEM_SIZE; the info is the first failing byte address (R142, R43 to R46).
  Raised by instruction fetch and by READ, WRITE, PUSH and POP. Safe: the spec's own terminal outcome. -/
  | outOfBoundsAddress (addr : Word)
  /-- A used register field of 13, 14 or 15; the info is the field (R142, R28, R83). Raised by every
  instruction with a register operand. Safe: the spec's own terminal outcome. -/
  | invalidRegisterIndex (field : Nibble)
deriving DecidableEq, Repr

/-- What the model refuses. No instruction refuses; the two host reasons are raised at the host ports only
and are the spec's own (R177, D9). -/
inductive Refusal where
  /-- An instruction without a meaning yet. Raised by `exec`'s refused arms, of which there are none. Safe. -/
  | notModelled (mnemonic : String)
  /-- A HOST_MEM access that touches an address >= MEM_SIZE, first such address given (R177, D9). Raised by
  the HOST_MEM port. Safe: the transaction is rejected and changes nothing, as the spec says. -/
  | hostAddressOutOfRange (addr : Word)
  /-- A HOST_REG access with an index >= 13 (R177, D9). Raised by the HOST_REG port. Safe: as above. -/
  | hostRegisterIndex (index : Nat)
deriving DecidableEq, Repr

/-- The seven stop reasons (R141). -/
inductive StopReason where
  | halt
  | invalidInstruction
  | invalidInstructionCategory
  | invalidInvalidInstruction
  | invalidArithmeticInstruction
  | invalidMemoryInstruction
  | invalidControlFlowInstruction
deriving DecidableEq, Repr

/-- What the STEP port answers (R9, R140): `Continue`, `Stop(reason)` or `Fault(kind, info)`. -/
inductive StepOutcome where
  | continues
  | stop (reason : StopReason)
  | fault (f : Fault)
deriving DecidableEq, Repr

/-- Memory as the bytes that differ from what reset leaves (R39), at rising addresses. -/
abbrev Memory := List Host.Cell

/-- The state of the CORE (R20). -/
structure State where
  /-- The register file x[0]..x[12] (R21). Register 1 is the program counter (R24, R31). -/
  x : Vector Word 13
  /-- MEM_SIZE, the number of bytes of memory, 0..2^64-1; fixed by RESET (R6). -/
  memSize : Word
  /-- The memory M (R40). -/
  mem : Memory
  /-- The fault latch FAULT (R38). -/
  fault : Option Fault
  /-- The model's own field: the STEP port's latest answer, none before the first STEP (R9, R140). No
  instruction reads it (R141: a stop records nothing in the CORE). -/
  response : Option StepOutcome
deriving DecidableEq, Repr

/-- RESET(MEM_SIZE, START_ADDRESS): a fresh block (R39, R170). -/
def State.resetWith (size start : Word) : State where
  x := (Vector.replicate 13 0).set 1 start
  memSize := size
  mem := []
  fault := none
  response := none

/-- The machine right after reset, for the parameters Config names (R39; log 1, log 2). -/
def State.reset : State := State.resetWith Config.memSize Config.startAddress

end Sys2Proof.Machine
end

