-- ==== Sys2Proof/Machine/Ops.lean ====
section
/-! DEFINITION. The named operations over registers and memory, and the three ways an instruction ends:
complete, stop, raise (00_scope.md R13; 10_state.md R21 to R26; 20_memory.md R43 to R47; 60_exceptions.md
R140 to R147). Raising is the one shared operation that takes an exceptional event; the CORE has no trap
entry and no return from one (R150, R151). -/

namespace Sys2Proof.Machine

/-- What a step, an instruction or an effect answers. -/
abbrev Result := Host.Outcome State Fault Refusal

/-! Registers. -/

/-- r0, the zero register (R22, R23). -/
def zeroReg : RegIndex := 0
/-- r1 = ip, the instruction pointer (R22, R24). -/
def ipReg : RegIndex := 1
/-- r2 = ra, the return-address register (R22, R25). -/
def raReg : RegIndex := 2
/-- r3 = sp, the stack pointer (R22, R26). -/
def spReg : RegIndex := 3

/-- `x[i]` (R21). -/
def State.reg (s : State) (i : RegIndex) : Word := s.x[i.val]

/-- `x[i] <- v` (R21). No register is hardwired against a write (R23, R29). -/
def State.setReg (s : State) (i : RegIndex) (v : Word) : State :=
  { s with x := s.x.set i.val v i.isLt }

/-! Memory as data. -/

/-- The byte at an address; one that nothing has written is zero (R39). -/
def Memory.read : Memory → Nat → Byte
  | [], _ => Config.unlistedByte
  | (k, b) :: rest, addr => if k = addr then b else Memory.read rest addr

/-- List a byte at its place in address order. -/
def Memory.insert : Memory → Nat → Byte → Memory
  | [], addr, b => [(addr, b)]
  | (k, c) :: rest, addr, b =>
    if addr < k then (addr, b) :: (k, c) :: rest
    else if addr = k then (addr, b) :: rest
    else (k, c) :: Memory.insert rest addr b

/-- `M[addr] <- b` in canonical form: the byte an unlisted address reads as is not listed. -/
def Memory.write (m : Memory) (addr : Nat) (b : Byte) : Memory :=
  if b = Config.unlistedByte then m.filter fun c => c.1 != addr else Memory.insert m addr b

/-- The canonical form: addresses strictly rising, and no listed byte equal to what an unlisted address
reads as. -/
abbrev Memory.wf (m : Memory) : Prop :=
  List.Pairwise (fun c d : Host.Cell => c.1 < d.1) m ∧ ∀ c ∈ m, c.2 ≠ Config.unlistedByte

/-! Memory access (addresses are exact numbers, so nothing wraps: R45, R46). -/

/-- `MemRead(addr, 1)` (R43). -/
def State.memRead1 (s : State) (addr : Nat) : Except Fault Byte :=
  if addr < s.memSize.toNat then .ok (Memory.read s.mem addr)
  else .error (.outOfBoundsAddress (BitVec.ofNat 64 addr))

/-- `MemWrite(addr, 1, b)` (R44): the state after, and the fault raised, if any. -/
def State.memWrite1 (s : State) (addr : Nat) (b : Byte) : State × Option Fault :=
  if addr < s.memSize.toNat then ({ s with mem := Memory.write s.mem addr b }, none)
  else (s, some (.outOfBoundsAddress (BitVec.ofNat 64 addr)))

/-- Reading n bytes at ascending addresses; the first out-of-range byte raises (R45, D12). -/
def State.memReadBytes (s : State) (addr : Nat) : Nat → Except Fault (List Byte)
  | 0 => .ok []
  | n + 1 =>
    match s.memRead1 addr with
    | .error f => .error f
    | .ok b =>
      match State.memReadBytes s (addr + 1) n with
      | .error f => .error f
      | .ok bs => .ok (b :: bs)

/-- Writing bytes at ascending addresses; the first out-of-range byte raises, and the bytes before it stay
written (R46, D12). -/
def State.memWriteBytes (s : State) (addr : Nat) : List Byte → State × Option Fault
  | [] => (s, none)
  | b :: bs =>
    match s.memWrite1 addr b with
    | (s', some f) => (s', some f)
    | (s', none) => State.memWriteBytes s' (addr + 1) bs

/-- `MemRead(addr, 8)`, little-endian, any alignment (R45, R47, R48). -/
def State.memRead8 (s : State) (addr : Word) : Except Fault Word :=
  match s.memReadBytes addr.toNat 8 with
  | .error f => .error f
  | .ok bs => .ok (wordOfBytes bs)

/-- `MemWrite(addr, 8, v)`, little-endian, any alignment (R46, R47, R48). -/
def State.memWrite8 (s : State) (addr v : Word) : State × Option Fault :=
  s.memWriteBytes addr.toNat (bytesOfWord v)

/-! How a step ends (R140). -/

/-- The step's answer is put on the STEP port (R9). -/
def State.respond (s : State) (o : StepOutcome) : State := { s with response := some o }

/-- The instruction completed: `Continue` (R85, R140). -/
def complete (s : State) : Result := .next (s.respond .continues)

/-- `stop S` (R13, R141, R144): the reason is only reported; nothing latches (R145). -/
def stopWith (reason : StopReason) (s : State) : Result := .next (s.respond (.stop reason))

/-- A fault is latched and answered (R146). -/
def State.latch (s : State) (f : Fault) : State :=
  { s with fault := some f, response := some (.fault f) }

/-- `raise F(info)` (R13, R142, R146): the effects completed so far stay, nothing else runs (R147). -/
def raise (f : Fault) (s : State) : Result := .next (s.latch f)

/-- The end of an instruction whose last act is a store: it raises what the store raises (R46, R147). -/
def finishStore : State × Option Fault → Result
  | (s, none) => complete s
  | (s, some f) => raise f s

/-! The numeric codes of outcomes (D14). -/

/-- The code of a stop reason (R141). -/
def StopReason.code : StopReason → Nat
  | .halt => 0
  | .invalidInstruction => 1
  | .invalidInstructionCategory => 2
  | .invalidInvalidInstruction => 3
  | .invalidArithmeticInstruction => 4
  | .invalidMemoryInstruction => 5
  | .invalidControlFlowInstruction => 6

/-- The code of a fault kind (R142). -/
def Fault.code : Fault → Nat
  | .outOfBoundsAddress _ => 0
  | .invalidRegisterIndex _ => 1

/-- The info of a fault as a number (R142). -/
def Fault.info : Fault → Nat
  | .outOfBoundsAddress addr => addr.toNat
  | .invalidRegisterIndex field => field.toNat

end Sys2Proof.Machine
end

