-- ==== Sys2Proof/Machine/Operands.lean ====
section
/-! DEFINITION. Operand forms: a register field is validated before it names a register (10_state.md R28;
40_step_cycle.md R83), and the addresses of the Memory category (42_memory_ops.md R117). -/

namespace Sys2Proof.Machine

/-- `Reg(n)` (R28): fields 13..15 raise InvalidRegisterIndex(n). -/
def regIndex (n : Nibble) : Except Fault RegIndex :=
  if h : n.toNat < 13 then .ok ⟨n.toNat, h⟩ else .error (.invalidRegisterIndex n)

/-- Validate one field, then run the effect (R83). -/
def withReg (a : Nibble) (s : State) (effect : RegIndex → Result) : Result :=
  match regIndex a with
  | .error f => raise f s
  | .ok ia => effect ia

/-- Validate two fields in order, then run the effect (R83). -/
def withRegs2 (a b : Nibble) (s : State) (effect : RegIndex → RegIndex → Result) : Result :=
  withReg a s fun ia => withReg b s fun ib => effect ia ib

/-- Validate three fields in order, then run the effect (R83). -/
def withRegs3 (a b o : Nibble) (s : State) (effect : RegIndex → RegIndex → RegIndex → Result) : Result :=
  withRegs2 a b s fun ia ib => withReg o s fun io => effect ia ib io

/-- Validate four fields in order, then run the effect (R83). -/
def withRegs4 (a b o r : Nibble) (s : State)
    (effect : RegIndex → RegIndex → RegIndex → RegIndex → Result) : Result :=
  withRegs3 a b o s fun ia ib io => withReg r s fun ir => effect ia ib io ir

/-- Register indirect: the register's value, unmodified (R117). -/
def indirectAddress (s : State) (i : RegIndex) : Word := s.reg i

/-- Pre-decrement: `sp -w 8` (R114, R117, D5). -/
def pushAddress (s : State) : Word := s.reg spReg - 8

/-- Post-increment: `sp` before it is updated (R115, R117). -/
def popAddress (s : State) : Word := s.reg spReg

end Sys2Proof.Machine
end

