-- ==== Sys2Proof/Machine/Flags.lean ====
section
/-! DEFINITION. Flag computations: there are none. The CORE has no status flags, condition codes or
predicates (10_state.md R35); overflow, carry, zero and division by zero leave no trace beyond the
destination values, so no instruction writes or reads a flag and State holds none. -/
end

