-- ==== Sys2Proof/Machine/Arithmetic.lean ====
section
/-! DEFINITION. The Arithmetic category (41_arithmetic.md R90 to R100). Each meaning runs after every byte of
the instruction is fetched, with x[1] = start + length (40_step_cycle.md R82). -/

namespace Sys2Proof.Machine

/-- The shape of ADD, SUB, MUL, AND, OR and XOR: both sources are read, then the destination is written. -/
def binaryOp (f : Word → Word → Word) (a b o : Nibble) (s : State) : Result :=
  withRegs3 a b o s fun ia ib io => complete (s.setReg io (f (s.reg ia) (s.reg ib)))

/-- Quotient and remainder, unsigned and truncating; a zero divisor gives 0 and 0 (R93, R100). -/
def divmodResult (va vb : Word) : Word × Word := if vb = 0 then (0, 0) else (va / vb, va % vb)

/-- ADD (R90). -/
def execAdd (a b o : Nibble) (s : State) : Result := binaryOp (· + ·) a b o s

/-- SUB (R91). -/
def execSub (a b o : Nibble) (s : State) : Result := binaryOp (· - ·) a b o s

/-- MUL: the low 64 bits of the product (R92). -/
def execMul (a b o : Nibble) (s : State) : Result := binaryOp (· * ·) a b o s

/-- DIVMOD: the operands are read once, the quotient is written first and the remainder last (R93, D4). -/
def execDivmod (a b o r : Nibble) (s : State) : Result :=
  withRegs4 a b o r s fun ia ib io ir =>
    let qm := divmodResult (s.reg ia) (s.reg ib)
    complete ((s.setReg io qm.1).setReg ir qm.2)

/-- AND (R94). -/
def execAnd (a b o : Nibble) (s : State) : Result := binaryOp (· &&& ·) a b o s

/-- OR (R95). -/
def execOr (a b o : Nibble) (s : State) : Result := binaryOp (· ||| ·) a b o s

/-- XOR (R96). -/
def execXor (a b o : Nibble) (s : State) : Result := binaryOp (· ^^^ ·) a b o s

/-- NOT (R97). -/
def execNot (a o : Nibble) (s : State) : Result :=
  withRegs2 a o s fun ia io => complete (s.setReg io (~~~ s.reg ia))

/-- Opcodes 0x81..0xF1 (R98). -/
def execStopInvalidArithmetic8 (s : State) : Result := stopWith .invalidArithmeticInstruction s

end Sys2Proof.Machine
end

