-- ==== Sys2Proof/Machine/ControlFlow.lean ====
section
/-! DEFINITION. The ControlFlow category (43_control_flow.md R130 to R134). -/

namespace Sys2Proof.Machine

/-- HALT (R130). -/
def execHalt (s : State) : Result := stopWith .halt s

/-- CALL: the return address is the fetched-past x[1]; the target is read after ra is written (R131, D4). -/
def execCall (a : Nibble) (s : State) : Result :=
  withReg a s fun ia =>
    let s1 := s.setReg raReg (s.reg ipReg)
    complete (s1.setReg ipReg (s1.reg ia))

/-- Opcodes 0x23, 0x33 (R132). -/
def execStopInvalidControlFlow2 (s : State) : Result := stopWith .invalidControlFlowInstruction s

/-- Opcodes 0x43..0x73 (R132). -/
def execStopInvalidControlFlow4 (s : State) : Result := stopWith .invalidControlFlowInstruction s

/-- Opcodes 0x83..0xF3 (R132). -/
def execStopInvalidControlFlow8 (s : State) : Result := stopWith .invalidControlFlowInstruction s

end Sys2Proof.Machine
end

