-- ==== Sys2Proof/Machine/DataMovement.lean ====
section
/-! DEFINITION. The Memory category (42_memory_ops.md R110 to R117). Each meaning runs after every byte of the
instruction is fetched, with x[1] = start + length (40_step_cycle.md R82). -/

namespace Sys2Proof.Machine

/-- COPY (R110). -/
def execCopy (a b : Nibble) (s : State) : Result :=
  withRegs2 a b s fun ia ib => complete (s.setReg ib (s.reg ia))

/-- LOAD (R111). -/
def execLoad (a : Nibble) (imm : Word) (s : State) : Result :=
  withReg a s fun ia => complete (s.setReg ia imm)

/-- READ: a faulting read writes nothing (R112). -/
def execRead (a b : Nibble) (s : State) : Result :=
  withRegs2 a b s fun ia ib =>
    match s.memRead8 (indirectAddress s ia) with
    | .error f => raise f s
    | .ok v => complete (s.setReg ib v)

/-- WRITE: a straddling write leaves its in-bounds bytes written (R113, R180). -/
def execWrite (a b : Nibble) (s : State) : Result :=
  withRegs2 a b s fun ia ib => finishStore (s.memWrite8 (indirectAddress s ib) (s.reg ia))

/-- PUSH: sp is decremented first, and x[a] is read after that (R114, D4, D5). -/
def execPush (a : Nibble) (s : State) : Result :=
  withReg a s fun ia =>
    let s1 := s.setReg spReg (pushAddress s)
    finishStore (s1.memWrite8 (s1.reg spReg) (s1.reg ia))

/-- POP: sp is re-read after x[a] is written (R115, D4, D5). -/
def execPop (a : Nibble) (s : State) : Result :=
  withReg a s fun ia =>
    match s.memRead8 (popAddress s) with
    | .error f => raise f s
    | .ok v =>
      let s1 := s.setReg ia v
      complete (s1.setReg spReg (s1.reg spReg + 8))

/-- Opcodes 0x62, 0x72 (R116). -/
def execStopInvalidMemory6 (s : State) : Result := stopWith .invalidMemoryInstruction s

/-- Opcodes 0x82..0xF2 (R116). -/
def execStopInvalidMemory8 (s : State) : Result := stopWith .invalidMemoryInstruction s

end Sys2Proof.Machine
end

