-- ==== Sys2Proof/Machine/InvalidCategory.lean ====
section
/-! DEFINITION. The Invalid category and the unassigned categories (40_step_cycle.md R86 to R88). -/

namespace Sys2Proof.Machine

/-- INVALID, opcode 0x00: the reason is InvalidInstruction, not Halt (R69, R86). -/
def execInvalid (s : State) : Result := stopWith .invalidInstruction s

/-- Opcode 0x10 (R87). -/
def execStopInvalidInvalid1 (s : State) : Result := stopWith .invalidInvalidInstruction s

/-- Opcodes 0x20, 0x30 (R87). -/
def execStopInvalidInvalid2 (s : State) : Result := stopWith .invalidInvalidInstruction s

/-- Opcodes 0x40..0x70 (R87). -/
def execStopInvalidInvalid4 (s : State) : Result := stopWith .invalidInvalidInstruction s

/-- Opcodes 0x80..0xF0 (R87). -/
def execStopInvalidInvalid8 (s : State) : Result := stopWith .invalidInvalidInstruction s

/-- Categories 0x4..0x7 (R88). -/
def execStopInvalidCategory4 (s : State) : Result := stopWith .invalidInstructionCategory s

/-- Categories 0x8..0xF (R88). -/
def execStopInvalidCategory8 (s : State) : Result := stopWith .invalidInstructionCategory s

end Sys2Proof.Machine
end

