-- ==== Sys2Proof/Machine/Dispatch.lean ====
section
/-! DEFINITION. exec: one arm per instruction. -/

namespace Sys2Proof.Machine

/-- The effect of an instruction on the state its fetch left (40_step_cycle.md R82, R84). -/
def exec (i : Instr) (s : State) : Host.Outcome State Fault Refusal :=
  match i with
  | .invalid => Sys2Proof.Machine.execInvalid s
  | .add a b o => Sys2Proof.Machine.execAdd a b o s
  | .sub a b o => Sys2Proof.Machine.execSub a b o s
  | .mul a b o => Sys2Proof.Machine.execMul a b o s
  | .divmod a b o r => Sys2Proof.Machine.execDivmod a b o r s
  | .and a b o => Sys2Proof.Machine.execAnd a b o s
  | .or a b o => Sys2Proof.Machine.execOr a b o s
  | .xor a b o => Sys2Proof.Machine.execXor a b o s
  | .not a o => Sys2Proof.Machine.execNot a o s
  | .copy a b => Sys2Proof.Machine.execCopy a b s
  | .load a imm => Sys2Proof.Machine.execLoad a imm s
  | .read a b => Sys2Proof.Machine.execRead a b s
  | .write a b => Sys2Proof.Machine.execWrite a b s
  | .push a => Sys2Proof.Machine.execPush a s
  | .pop a => Sys2Proof.Machine.execPop a s
  | .halt => Sys2Proof.Machine.execHalt s
  | .call a => Sys2Proof.Machine.execCall a s
  | .stopInvalidInvalid1 => Sys2Proof.Machine.execStopInvalidInvalid1 s
  | .stopInvalidInvalid2 _ => Sys2Proof.Machine.execStopInvalidInvalid2 s
  | .stopInvalidInvalid4 _ => Sys2Proof.Machine.execStopInvalidInvalid4 s
  | .stopInvalidInvalid8 _ => Sys2Proof.Machine.execStopInvalidInvalid8 s
  | .stopInvalidArithmetic8 _ => Sys2Proof.Machine.execStopInvalidArithmetic8 s
  | .stopInvalidMemory6 _ => Sys2Proof.Machine.execStopInvalidMemory6 s
  | .stopInvalidMemory8 _ => Sys2Proof.Machine.execStopInvalidMemory8 s
  | .stopInvalidControlFlow2 _ => Sys2Proof.Machine.execStopInvalidControlFlow2 s
  | .stopInvalidControlFlow4 _ => Sys2Proof.Machine.execStopInvalidControlFlow4 s
  | .stopInvalidControlFlow8 _ => Sys2Proof.Machine.execStopInvalidControlFlow8 s
  | .stopInvalidCategory4 _ _ => Sys2Proof.Machine.execStopInvalidCategory4 s
  | .stopInvalidCategory8 _ _ => Sys2Proof.Machine.execStopInvalidCategory8 s

end Sys2Proof.Machine
end

