-- ==== Sys2Proof/Machine/Fetch.lean ====
section
/-! DEFINITION. The part of a step before the effect: the zero register is reset, the opcode is fetched, and
then every operand byte it calls for (40_step_cycle.md R80 to R82). -/

namespace Sys2Proof.Machine

/-- Step 1 of R80: `x[0] <- 0`. -/
def beginStep (s : State) : State := s.setReg zeroReg 0

/-- `FetchByte()` (R81): a failing read leaves x[1] unchanged (D15). -/
def fetchByte (s : State) : Except Fault (Byte × State) :=
  match s.memRead1 (s.reg ipReg).toNat with
  | .error f => .error f
  | .ok b => .ok (b, s.setReg ipReg (s.reg ipReg + 1))

/-- n bytes fetched in ascending order; a fault comes with the state the bytes fetched so far left (R82, R147). -/
def fetchBytes : Nat → State → Except (Fault × State) (List Byte × State)
  | 0, s => .ok ([], s)
  | n + 1, s =>
    match fetchByte s with
    | .error f => .error (f, s)
    | .ok (b, s1) =>
      match fetchBytes n s1 with
      | .error e => .error e
      | .ok (bs, s2) => .ok (b :: bs, s2)

/-- The instruction at x[1] and the state after all its bytes are fetched, x[1] = start + length (R31, R82, R84). -/
def fetchInstr (s : State) : Except (Fault × State) (Instr × State) :=
  match fetchByte s with
  | .error f => .error (f, s)
  | .ok (op, s1) =>
    match fetchBytes (operandCount op) s1 with
    | .error e => .error e
    | .ok (ops, s2) => .ok (instrOf op ops, s2)

/-- Bytes placed from an address on, those out of bounds left out: what a loader does through HOST_MEM (R173). -/
def placeBytes (size : Nat) : Memory → Nat → List Byte → Memory
  | m, _, [] => m
  | m, addr, b :: bs =>
    placeBytes size (if addr < size then Memory.write m addr b else m) (addr + 1) bs

end Sys2Proof.Machine
end

