-- ==== Sys2Proof/Machine/Step.lean ====
section
/-! DEFINITION. One STEP transaction (40_step_cycle.md R80), and the placing of one instruction where the next
step fetches. -/

namespace Sys2Proof.Machine

/-- Step() of R80. With the fault latch set it changes nothing and answers the latched fault (R146); a fetch
that runs out of memory raises (R81); otherwise the fetched instruction runs (R82 to R85). -/
def step (s : State) : Host.Outcome State Fault Refusal :=
  match s.fault with
  | some f => .fault f
  | none =>
    match fetchInstr (beginStep s) with
    | .error (f, s') => raise f s'
    | .ok (i, s') => exec i s'

/-- The state with an instruction's bytes stored at x[1], numbered as `decodeTableWord` numbers them. A latched
fault would keep the step from fetching, so it is cleared, with its answer; a byte past MEM_SIZE has no place. -/
def State.withFetchWord (s : State) (nbits w : Nat) : State :=
  { s with
    mem := placeBytes s.memSize.toNat s.mem (s.reg ipReg).toNat (tableBytes nbits w)
    fault := none
    response := if s.fault.isSome then none else s.response }

end Sys2Proof.Machine
end

