-- ==== Sys2Proof/Machine/Port.lean ====
section
/-! DEFINITION. The CORE's four ports at transaction level: RESET, STEP, HOST_MEM and HOST_REG (00_scope.md R9,
R10; 70_reset_and_hazards.md R170, R177; 92_eei_decisions.md D9). A transaction runs to completion, so the
host acts between steps only. -/

namespace Sys2Proof.Machine

/-- The host error of a memory primitive: the access is refused, and it is no CORE fault (D9). -/
def hostRefusal : Fault → Refusal
  | .outOfBoundsAddress addr => .hostAddressOutOfRange addr
  | .invalidRegisterIndex field => .hostRegisterIndex field.toNat

/-- host_read8(addr) (R9, R177). -/
def hostRead8 (s : State) (addr : Word) : Except Refusal Byte :=
  match s.memRead1 addr.toNat with
  | .error f => .error (hostRefusal f)
  | .ok b => .ok b

/-- host_read64(addr) (R9, R177). -/
def hostRead64 (s : State) (addr : Word) : Except Refusal Word :=
  match s.memRead8 addr with
  | .error f => .error (hostRefusal f)
  | .ok v => .ok v

/-- A host write that any byte refuses changes nothing (D9). -/
def hostWritten : State × Option Fault → Result
  | (s, none) => .next s
  | (_, some f) => .refused (hostRefusal f)

/-- host_write8(addr, byte) (R9, R177). -/
def hostWrite8 (s : State) (addr : Word) (b : Byte) : Result := hostWritten (s.memWrite1 addr.toNat b)

/-- host_write64(addr, value) (R9, R177). -/
def hostWrite64 (s : State) (addr v : Word) : Result := hostWritten (s.memWrite8 addr v)

/-- host_read_reg(i) (R9, R177). -/
def hostReadReg (s : State) (i : Nat) : Except Refusal Word :=
  if h : i < 13 then .ok (s.reg ⟨i, h⟩) else .error (.hostRegisterIndex i)

/-- host_write_reg(i, value) (R9, R177). -/
def hostWriteReg (s : State) (i : Nat) (v : Word) : Result :=
  if h : i < 13 then .next (s.setReg ⟨i, h⟩ v) else .refused (.hostRegisterIndex i)

/-- The transactions of the boundary (R9). -/
inductive Transaction where
  | reset (size start : Word)
  | step
  | hostRead8 (addr : Word)
  | hostWrite8 (addr : Word) (b : Byte)
  | hostRead64 (addr : Word)
  | hostWrite64 (addr v : Word)
  | hostReadReg (i : Nat)
  | hostWriteReg (i : Nat) (v : Word)
deriving DecidableEq, Repr

/-- What the host gets back (R177). -/
inductive Reply where
  | done
  | outcome (o : StepOutcome)
  | byte (b : Byte)
  | word (v : Word)
  | refused (r : Refusal)
deriving DecidableEq, Repr

/-- A transaction that answers a value and changes nothing. -/
def readReply {α : Type} (s : State) (reply : α → Reply) : Except Refusal α → State × Reply
  | .ok v => (s, reply v)
  | .error r => (s, .refused r)

/-- A transaction that writes, or is refused and changes nothing. -/
def writeReply (s : State) : Result → State × Reply
  | .next t => (t, .done)
  | .fault f => (s, .outcome (.fault f))
  | .refused r => (s, .refused r)

/-- The STEP port: the state after, and the answer of R140. -/
def stepReply (s : State) : Result → State × Reply
  | .next t =>
    match t.response with
    | some o => (t, .outcome o)
    | none => (t, .done)
  | .fault f => (s, .outcome (.fault f))
  | .refused r => (s, .refused r)

/-- One transaction: the state after it and the host's reply (R9, R177). -/
def transact (s : State) : Transaction → State × Reply
  | .reset size start => (State.resetWith size start, .done)
  | .step => stepReply s (step s)
  | .hostRead8 addr => readReply s .byte (hostRead8 s addr)
  | .hostWrite8 addr b => writeReply s (hostWrite8 s addr b)
  | .hostRead64 addr => readReply s .word (hostRead64 s addr)
  | .hostWrite64 addr v => writeReply s (hostWrite64 s addr v)
  | .hostReadReg i => readReply s .word (hostReadReg s i)
  | .hostWriteReg i v => writeReply s (hostWriteReg s i v)

end Sys2Proof.Machine
end

