-- ==== Sys2Proof/Machine/Run.lean ====
section
/-! DEFINITION. A run and its end (70_reset_and_hazards.md R178, R185): STEP transactions until the first
outcome other than Continue, under a step bound that is the host's. -/

namespace Sys2Proof.Machine

/-- How a run ends (R178). -/
inductive RunEnd where
  /-- `Stop(Halt)`: the normal end, with its final state. -/
  | halted (final : State)
  /-- Any other stop: an abnormal end, with its final state. -/
  | stopped (reason : StopReason) (final : State)
  /-- A faulted run, which has no final state. -/
  | faulted (f : Fault)
  /-- The step bound ran out with every outcome so far Continue. -/
  | running (s : State)
  /-- The STEP port answered something that is none of R140's outcomes: no step does. -/
  | noOutcome (s : State)
deriving DecidableEq, Repr

/-- The run from a launch state, for at most `fuel` steps (R178, R185). -/
def run : Nat → State → RunEnd
  | 0, s => .running s
  | fuel + 1, s =>
    match transact s .step with
    | (t, .outcome .continues) => run fuel t
    | (t, .outcome (.stop .halt)) => .halted t
    | (t, .outcome (.stop r)) => .stopped r t
    | (_, .outcome (.fault f)) => .faulted f
    | (t, _) => .noOutcome t

end Sys2Proof.Machine
end

