-- ==== Sys2Proof/Safety.lean ====
section
/-! DEFINITION. What counts as a safe run, and the vocabulary of the claims: what an instruction leaves
unchanged, where its data access goes, and when a byte sequence runs as an instruction. -/

namespace Sys2Proof.Machine

/-! Safe runs. -/

/-- No contract violation has happened (R142, R146). -/
def Safe (s : State) : Prop := s.fault = none

/-- No state that at most n steps reach has a latched fault. -/
def SafeFor : Nat → State → Prop
  | 0, s => Safe s
  | n + 1, s => Safe s ∧ ∀ t, step s = .next t → SafeFor n t

/-- What holds in every state a run reaches: memory is canonical and lists nothing out of bounds, and the
latch is set exactly when the port's latest answer is that fault. -/
def State.Inv (s : State) : Prop :=
  Memory.wf s.mem ∧ (∀ c ∈ s.mem, c.1 < s.memSize.toNat) ∧
    ∀ f, s.fault = some f ↔ s.response = some (.fault f)

/-! The table of R100. -/

/-- The corners of DIVMOD, row by row: dividend, divisor, quotient, remainder (R100). -/
def divmodCorners : List (Word × Word × Word × Word) :=
  [(0, 0, 0, 0), (7, 0, 0, 0), (0xFFFFFFFFFFFFFFFF, 0, 0, 0), (0, 5, 0, 0), (3, 5, 0, 3), (5, 5, 1, 0),
   (17, 5, 3, 2), (0xFFFFFFFFFFFFFFFF, 1, 0xFFFFFFFFFFFFFFFF, 0),
   (0xFFFFFFFFFFFFFFFF, 0xFFFFFFFFFFFFFFFF, 1, 0),
   (0xFFFFFFFFFFFFFFFF, 2, 0x7FFFFFFFFFFFFFFF, 1),
   (0x8000000000000000, 0xFFFFFFFFFFFFFFFF, 0, 0x8000000000000000)]

/-! Data accesses. -/

/-- The start address of the 8-byte data access of an instruction (R117, R143); READ and WRITE with an
invalid address field have none. -/
def dataAddress (s : State) : Instr → Option Word
  | .read a _ => (regIndex a).toOption.map (indirectAddress s)
  | .write _ b => (regIndex b).toOption.map (indirectAddress s)
  | .push _ => some (pushAddress s)
  | .pop _ => some (popAddress s)
  | .invalid | .add _ _ _ | .sub _ _ _ | .mul _ _ _ | .divmod _ _ _ _ | .and _ _ _ | .or _ _ _
  | .xor _ _ _ | .not _ _ | .copy _ _ | .load _ _ | .halt | .call _ => none
  | .stopInvalidInvalid1 | .stopInvalidInvalid2 _ | .stopInvalidInvalid4 _ | .stopInvalidInvalid8 _
  | .stopInvalidArithmetic8 _ | .stopInvalidMemory6 _ | .stopInvalidMemory8 _
  | .stopInvalidControlFlow2 _ | .stopInvalidControlFlow4 _ | .stopInvalidControlFlow8 _
  | .stopInvalidCategory4 _ _ | .stopInvalidCategory8 _ _ => none

/-- The 8 bytes from an address on all exist (R180). -/
def accessInBounds (s : State) (addr : Word) : Prop := addr.toNat + 7 < s.memSize.toNat

/-- The first byte address of an 8-byte access that does not exist, where there is one (R45, R46). -/
def firstMissing (s : State) (addr : Word) : Option Nat :=
  ((List.range 8).map (addr.toNat + ·)).find? fun k => decide (s.memSize.toNat ≤ k)

/-! Frames. -/

/-- The registers an instruction writes: its destination fields, and the implicit sp, ra and ip of PUSH, POP
and CALL (R25, R26, R133). -/
def writtenRegs : Instr → List RegIndex
  | .add _ _ o | .sub _ _ o | .mul _ _ o | .and _ _ o | .or _ _ o | .xor _ _ o | .not _ o =>
    (regIndex o).toOption.toList
  | .divmod _ _ o r => (regIndex o).toOption.toList ++ (regIndex r).toOption.toList
  | .copy _ b | .read _ b => (regIndex b).toOption.toList
  | .load a _ => (regIndex a).toOption.toList
  | .pop a => (regIndex a).toOption.toList ++ [spReg]
  | .push _ => [spReg]
  | .call _ => [raReg, ipReg]
  | .write _ _ | .invalid | .halt => []
  | .stopInvalidInvalid1 | .stopInvalidInvalid2 _ | .stopInvalidInvalid4 _ | .stopInvalidInvalid8 _
  | .stopInvalidArithmetic8 _ | .stopInvalidMemory6 _ | .stopInvalidMemory8 _
  | .stopInvalidControlFlow2 _ | .stopInvalidControlFlow4 _ | .stopInvalidControlFlow8 _
  | .stopInvalidCategory4 _ _ | .stopInvalidCategory8 _ _ => []

/-- Every register but the listed ones is unchanged. -/
def KeepsRegs (s t : State) (changed : List RegIndex) : Prop := ∀ j, j ∉ changed → t.reg j = s.reg j

/-- Every byte of memory, and its size, is unchanged. -/
def KeepsMem (s t : State) : Prop :=
  t.memSize = s.memSize ∧ ∀ addr, Memory.read t.mem addr = Memory.read s.mem addr

/-- Every byte outside the n bytes from an address on, and the size of memory, is unchanged. -/
def KeepsMemOutside (s t : State) (start n : Nat) : Prop :=
  t.memSize = s.memSize ∧
    ∀ addr, addr < start ∨ start + n ≤ addr → Memory.read t.mem addr = Memory.read s.mem addr

/-- The instruction completed: the answer is Continue and the latch is as it was (R140). -/
def Continues (s t : State) : Prop := t.response = some .continues ∧ t.fault = s.fault

/-- The answer is Stop(reason), and nothing else changed (R140, R141, R144). -/
def StopsIn (s t : State) (reason : StopReason) : Prop :=
  t.response = some (.stop reason) ∧ t.fault = s.fault ∧ KeepsRegs s t [] ∧ KeepsMem s t

/-- The fault is answered and latched (R142, R146). -/
def Latches (t : State) (f : Fault) : Prop := t.fault = some f ∧ t.response = some (.fault f)

/-- The fault is answered and latched, and nothing else changed. -/
def FaultsIn (s t : State) (f : Fault) : Prop := Latches t f ∧ KeepsRegs s t [] ∧ KeepsMem s t

/-- The answer of an instruction whose fields, listed in the order of R83, are not all registers. -/
def RaisesFirstInvalid (i : Instr) (fields : List Nibble) : Prop :=
  ∀ s n, firstInvalid fields = some n →
    ∃ t, exec i s = .next t ∧ FaultsIn s t (.invalidRegisterIndex n)

/-! Fetching. -/

/-- The bytes stand at x[1], all in bounds. -/
def CodeAt (s : State) (bytes : List Byte) : Prop :=
  ∀ k, k < bytes.length →
    (s.reg ipReg).toNat + k < s.memSize.toNat ∧
      Memory.read s.mem ((s.reg ipReg).toNat + k) = bytes.getD k 0

/-- A fetch at an address reads the byte, in every state with this memory and its size, whatever else it
holds. -/
def FetchReads (t : State) (addr : Nat) (b : Byte) : Prop :=
  ∀ u : State, u.mem = t.mem → u.memSize = t.memSize → (u.reg ipReg).toNat = addr →
    ∃ u', fetchByte u = .ok (b, u')

/-- The state in which an instruction's effect runs: r0 is zero and x[1] is n bytes on (R31, R80, R82). -/
def afterFetch (s : State) (n : Nat) : State :=
  (s.setReg zeroReg 0).setReg ipReg (s.reg ipReg + BitVec.ofNat 64 n)

/-- Memory ends before byte k of the instruction at x[1], whose length the opcode byte there gives (R65, R81):
the bytes before byte k exist and byte k does not. -/
def FetchCutAt (s : State) (k : Nat) : Prop :=
  (∀ j, j < k → (s.reg ipReg).toNat + j < s.memSize.toNat) ∧
  s.memSize.toNat ≤ (s.reg ipReg).toNat + k ∧
  (0 < k → k < lengthOf (Memory.read s.mem (s.reg ipReg).toNat))

/-- What the instruction at x[1] raises as its effect begins, with the state the effect runs in: its first bad
register field, or else the first missing byte of its data access (R83, R142). -/
def EffectCause (s : State) (i : Instr) (f : Fault) : Prop :=
  (∃ n, firstInvalid (usedFields i) = some n ∧ f = .invalidRegisterIndex n) ∨
  ∃ addr k, firstInvalid (usedFields i) = none ∧ dataAddress s i = some addr ∧
    firstMissing s addr = some k ∧ f = .outOfBoundsAddress (BitVec.ofNat 64 k)

/-- Where the bytes stand at x[1], a step runs the instruction with x[1] past them; and where memory ends
before byte k of them, a step raises at that byte, with the k bytes before it fetched (R81, R82). -/
def FetchedAs (bytes : List Byte) (i : Instr) : Prop :=
  (∀ s, s.fault = none → CodeAt s bytes → step s = exec i (afterFetch s bytes.length)) ∧
  ∀ s k, s.fault = none → k < bytes.length → CodeAt s (bytes.take k) →
    s.memSize.toNat ≤ (s.reg ipReg).toNat + k →
    ∃ t, step s = .next t ∧
      FaultsIn (afterFetch s k) t (.outOfBoundsAddress (BitVec.ofNat 64 ((s.reg ipReg).toNat + k)))

end Sys2Proof.Machine
end

