-- ==== Sys2Proof/Certificates/Slice0/Obligations.lean ====
section
/-! DEFINITION. The statements for the provers, from the numbered rules of spec/. `exec` runs on the state
its fetch left, x[1] past the instruction (R82); `FetchedAs` says which bytes run which instruction, and
what a fetch that memory cuts short raises; `StepRunsDecodedInstruction` joins the two. -/

open Sys2Proof Sys2Proof.Machine

/-! ## Reset -/

/-- R39, R170: the state after RESET(MEM_SIZE, START_ADDRESS), for every pair of parameters. -/
def Obligations.ResetGivesTheStatedState : Prop :=
  ∀ (size start : Word) (before : State),
    (∀ j, (State.resetWith size start).reg j = if j = ipReg then start else 0) ∧
    (State.resetWith size start).memSize = size ∧
    (∀ addr, Memory.read (State.resetWith size start).mem addr = 0) ∧
    (State.resetWith size start).fault = none ∧
    transact before (.reset size start) = (State.resetWith size start, .done)

/-- The invariant of `StepKeepsInvariant` (log 3, log 13) holds after every RESET, so at `State.reset`. -/
def Obligations.ResetMeetsInvariant : Prop :=
  State.reset.Inv ∧ ∀ size start : Word, (State.resetWith size start).Inv

/-- R174: with sp as reset leaves it, PUSH always faults, and POP reads address 0 where 8 bytes exist. -/
def Obligations.StackNeedsInitialising : Prop :=
  (∀ size start : Word, (State.resetWith size start).reg spReg = 0) ∧
  ∀ (s : State) (ia : RegIndex), s.reg spReg = 0 →
    (∃ t addr, exec (.push (fieldOf ia)) s = .next t ∧
      t.reg spReg = 0xFFFFFFFFFFFFFFF8 ∧ Latches t (.outOfBoundsAddress addr)) ∧
    (8 ≤ s.memSize.toNat → ∃ t v, exec (.pop (fieldOf ia)) s = .next t ∧ Continues s t ∧
      (∀ k, k < 8 → v.extractLsb' (8 * k) 8 = Memory.read s.mem k) ∧
      t.reg ia = if ia = spReg then v + 8 else v)

/-- R175: a start address outside memory faults on the first fetch, and so does every step of a block
with no memory. -/
def Obligations.StartOutsideMemoryFaults : Prop :=
  (∀ size start : Word, size.toNat ≤ start.toNat →
    ∃ t, step (State.resetWith size start) = .next t ∧ Latches t (.outOfBoundsAddress start)) ∧
  ∀ s : State, s.fault = none → s.memSize = 0 →
    ∃ t, step s = .next t ∧ Latches t (.outOfBoundsAddress (s.reg ipReg))

/-! ## The step -/

/-- R80 to R82: a step with the latch clear runs the decoded instruction, on the state in which r0 is zero,
x[1] is past the instruction and all else is as it was. -/
def Obligations.StepRunsDecodedInstruction : Prop :=
  ∀ (s : State) (bytes : List Byte) (i : Instr),
    s.fault = none → CodeAt s bytes → decode bytes = .ok (i, []) →
    step s = exec i (afterFetch s bytes.length) ∧
    (afterFetch s bytes.length).reg zeroReg = 0 ∧
    ((afterFetch s bytes.length).reg ipReg).toNat = (s.reg ipReg).toNat + bytes.length ∧
    KeepsRegs s (afterFetch s bytes.length) [zeroReg, ipReg] ∧
    KeepsMem s (afterFetch s bytes.length) ∧
    (afterFetch s bytes.length).fault = none

/-- Every step, and every transaction of the host, keeps the invariant: canonical memory inside its bounds (the
model's choice, log 13), and the latch in agreement with the port's answer (a field of the model's own, log 3).
So it holds in every launch state of R178, and in every state that any transactions reach from RESET. -/
def Obligations.StepKeepsInvariant : Prop :=
  (∀ s t : State, s.Inv → step s = .next t → t.Inv) ∧
  (∀ (s : State) (tr : Transaction), s.Inv → (transact s tr).1.Inv) ∧
  ∀ (size start : Word) (trs : List Transaction),
    (trs.foldl (fun s tr => (transact s tr).1) (State.resetWith size start)).Inv

/-- R140: every STEP request returns exactly one outcome, and the state afterwards is as its row says. -/
def Obligations.EveryStepAnswersOneOutcome : Prop :=
  ∀ s : State, ∃ t o, transact s .step = (t, .outcome o) ∧
    (o = .continues → s.fault = none ∧ t.fault = none ∧ step s = .next t) ∧
    (∀ r, o = .stop r → s.fault = none ∧ t.fault = none ∧ step s = .next t ∧
      t.reg zeroReg = 0 ∧ t.reg ipReg = s.reg ipReg + 1 ∧
      KeepsRegs s t [zeroReg, ipReg] ∧ KeepsMem s t) ∧
    (∀ f, o = .fault f → t.fault = some f ∧ (s.fault = none → step s = .next t))

/-- R146: the first fault latches; from then on every STEP answers it and changes nothing; only RESET
clears it. -/
def Obligations.FaultIsTerminal : Prop :=
  (∀ s t f, s.fault = none → step s = .next t → t.response = some (.fault f) → t.fault = some f) ∧
  ∀ (s : State) (f : Fault), s.fault = some f →
    step s = .fault f ∧ transact s .step = (s, .outcome (.fault f)) ∧
    (∀ tr, (∀ size start, tr ≠ .reset size start) → (transact s tr).1.fault = some f) ∧
    ∀ size start, (transact s (.reset size start)).1.fault = none

/-- R145: a stop does not latch; the next step runs the instruction at start + 1. -/
def Obligations.StopDoesNotLatch : Prop :=
  ∀ (s t : State) (r : StopReason),
    s.fault = none → step s = .next t → t.response = some (.stop r) →
    t.fault = none ∧ t.reg ipReg = s.reg ipReg + 1 ∧
    ∀ (bytes : List Byte) (i : Instr), CodeAt t bytes → decode bytes = .ok (i, []) →
      step t = exec i (afterFetch t bytes.length)

/-- R34, R81: the fetch primitive, and that its increment never wraps. -/
def Obligations.FetchReadsThenIncrements : Prop :=
  ∀ s : State,
    ((s.reg ipReg).toNat < s.memSize.toNat →
      ∃ t, fetchByte s = .ok (Memory.read s.mem (s.reg ipReg).toNat, t) ∧
        (t.reg ipReg).toNat = (s.reg ipReg).toNat + 1 ∧
        KeepsRegs s t [ipReg] ∧ KeepsMem s t ∧ t.fault = s.fault) ∧
    (s.memSize.toNat ≤ (s.reg ipReg).toNat →
      fetchByte s = .error (.outOfBoundsAddress (s.reg ipReg)) ∧
      (s.fault = none → ∃ t, step s = .next t ∧ t.reg ipReg = s.reg ipReg ∧
        Latches t (.outOfBoundsAddress (s.reg ipReg)))) ∧
    ((s.reg ipReg).toNat = 2 ^ 64 - 1 → ∃ f, fetchByte s = .error f)

/-- R73: whatever the bytes at x[1], a step fetches all of the instruction or raises at the first byte past
memory; and the decoder refuses only a list that ends before its instruction does. -/
def Obligations.DecoderIsTotal : Prop :=
  (∀ (op : Byte) (ops : List Byte), ops.length + 1 = lengthOf op →
    FetchedAs (op :: ops) (instrOf op ops)) ∧
  ∀ (op : Byte) (rest : List Byte),
    (lengthOf op ≤ rest.length + 1 →
      decode (op :: rest)
        = .ok (instrOf op (rest.take (lengthOf op - 1)), rest.drop (lengthOf op - 1))) ∧
    (rest.length + 1 < lengthOf op → ∃ e, decode (op :: rest) = .error e)

/-- R148: the first event in the order latch, opcode fetch, stop, operand fetch, register fields a, b, o, r,
data access; and a step reports no other fault. -/
def Obligations.PriorityWithinOneStep : Prop :=
  (∀ (s : State) (f : Fault), s.fault = some f → step s = .fault f) ∧
  (∀ (op : Byte) (ops : List Byte), ops.length + 1 = lengthOf op →
    FetchedAs (op :: ops) (instrOf op ops)) ∧
  ∀ (i : Instr) (s : State), ∃ t, exec i s = .next t ∧
    ((∃ r, t.response = some (.stop r)) → (encode i).length = 1 ∧ t.fault = s.fault) ∧
    (∀ n, firstInvalid (usedFields i) = some n → FaultsIn s t (.invalidRegisterIndex n)) ∧
    (firstInvalid (usedFields i) = none → ∀ addr, dataAddress s i = some addr →
      ∀ k, firstMissing s addr = some k → Latches t (.outOfBoundsAddress (BitVec.ofNat 64 k))) ∧
    (firstInvalid (usedFields i) = none →
      (∀ addr, dataAddress s i = some addr → accessInBounds s addr) → t.fault = s.fault)

/-- R23: r0 is zeroed before the fetch, so its old value reaches nothing; a write to it takes effect as to any
register, and a later read and the host see it until the next step. -/
def Obligations.ZeroRegisterIsZeroedEachStep : Prop :=
  (∀ (s : State) (v : Word), s.fault = none → step (s.setReg zeroReg v) = step s) ∧
  (∀ (s : State) (n : Nat), (afterFetch s n).reg zeroReg = 0) ∧
  (∀ (s : State) (v : Word), (s.setReg zeroReg v).reg zeroReg = v ∧
    hostReadReg (s.setReg zeroReg v) 0 = .ok v) ∧
  ∀ (s : State) (ia : RegIndex), ∃ t,
    exec (.copy (fieldOf ia) (fieldOf zeroReg)) s = .next t ∧ t.reg zeroReg = s.reg ia ∧
    hostReadReg t 0 = .ok (s.reg ia)

/-- R6, R40: MEM_SIZE changes at RESET only. -/
def Obligations.MemorySizeIsFixed : Prop :=
  ∀ (s : State) (tr : Transaction), (∀ size start, tr ≠ .reset size start) →
    (transact s tr).1.memSize = s.memSize

/-- R25, R26, R29: an instruction changes no register but its destination fields and the implicit ones. -/
def Obligations.OnlyNamedRegistersChange : Prop :=
  ∀ (i : Instr) (s t : State), exec i s = .next t → KeepsRegs s t (writtenRegs i)

/-- R49: only WRITE and PUSH store, and only the 8 bytes from x[b], or from sp - 8, on. -/
def Obligations.OnlyStoresChangeMemory : Prop :=
  ∀ (i : Instr) (s t : State), exec i s = .next t →
    ((∀ a b, i ≠ .write a b) → (∀ a, i ≠ .push a) → KeepsMem s t) ∧
    (∀ a b, i = .write a b →
      (∀ ib, regIndex b = .ok ib →
        KeepsMemOutside s t (indirectAddress s ib).toNat 8) ∧
      ((firstInvalid [a, b]).isSome → KeepsMem s t)) ∧
    ∀ a, i = .push a →
      KeepsMemOutside s t (pushAddress s).toNat 8 ∧ ((firstInvalid [a]).isSome → KeepsMem s t)

/-- R32, R133: x[1] is start + length after an instruction that completes and does not write register 1. -/
def Obligations.ControlChangesOnlyByWritingIp : Prop :=
  ∀ (s t : State) (bytes : List Byte) (i : Instr),
    s.fault = none → CodeAt s bytes → decode bytes = .ok (i, []) →
    step s = .next t → t.response = some .continues → ipReg ∉ writtenRegs i →
    (t.reg ipReg).toNat = (s.reg ipReg).toNat + bytes.length

/-! ## Encoding -/

/-- Every instruction, whatever its fields, decodes back from its encoding. -/
def Obligations.DecodeOfEncode : Prop :=
  ∀ (i : Instr) (rest : List Byte), decode (encode i ++ rest) = .ok (i, rest)

/-- R71: the bytes a decoded instruction was read from are its canonical encoding, but for the unused
nibble. -/
def Obligations.EncodeOfDecode : Prop :=
  ∀ (bytes rest : List Byte) (i : Instr), decode bytes = .ok (i, rest) →
    ∃ read, bytes = read ++ rest ∧ canonical read = encode i

/-- R65 to R68: every opcode byte is selected by exactly one row of the table, and the decoder reads that
row's instruction with that row's length. -/
def Obligations.EveryOpcodeHasOneRow : Prop :=
  ∀ (op : Byte) (ops : List Byte),
    (opcodeTable.filter fun row => row.selects op).map (fun row => (row.mnemonic, row.length))
      = [(mnemonic (instrOf op ops), lengthOf op)]

/-- R66: words written out from the formats of R63. -/
def Obligations.SampleWordsDecode : Prop :=
  decode [0x01, 0x54, 0x06] = .ok (.add 4 5 6, []) ∧
  decode [0x31, 0x54, 0xA9] = .ok (.divmod 4 5 9 10, []) ∧
  decode [0x71, 0xB4] = .ok (.not 4 11, []) ∧
  decode [0x02, 0x74] = .ok (.copy 4 7, []) ∧
  decode [0x12, 0x04, 0x88, 0x77, 0x66, 0x55, 0x44, 0x33, 0x22, 0x11]
    = .ok (.load 4 0x1122334455667788, []) ∧
  decode [0x42, 0x04] = .ok (.push 4, []) ∧
  decode [0x13, 0x08] = .ok (.call 8, []) ∧
  decode [0x00] = .ok (.invalid, []) ∧
  decode [0x30] = .ok (.stopInvalidInvalid2 1, []) ∧
  decode [0xA7] = .ok (.stopInvalidCategory4 10 3, [])

/-- R71: in the formats R1, R3 and RI the unused nibble is ignored, and the encoder leaves it zero. -/
def Obligations.UnusedNibbleIsIgnored : Prop :=
  (∀ (op : Byte) (a u : Nibble) (rest : List Byte), formatOf op = .r1 →
    decode (op :: nibblePair u a :: rest) = decode (op :: nibblePair 0 a :: rest)) ∧
  (∀ (op b1 : Byte) (o u : Nibble) (rest : List Byte), formatOf op = .r3 →
    decode (op :: b1 :: nibblePair u o :: rest) = decode (op :: b1 :: nibblePair 0 o :: rest)) ∧
  (∀ (op : Byte) (a u : Nibble) (rest : List Byte), formatOf op = .ri → 8 ≤ rest.length →
    decode (op :: nibblePair u a :: rest) = decode (op :: nibblePair 0 a :: rest)) ∧
  ∀ i, canonical (encode i) = encode i

/-- R75: the pseudo-instructions' bytes and effects. -/
def Obligations.PseudoInstructions : Prop :=
  (encode Pseudo.nop = [0x02, 0x00] ∧ ∀ s : State, s.reg zeroReg = 0 →
    ∃ t, exec Pseudo.nop s = .next t ∧ Continues s t ∧ KeepsRegs s t [] ∧ KeepsMem s t) ∧
  (encode Pseudo.ret = [0x02, 0x12] ∧ ∀ s : State,
    ∃ t, exec Pseudo.ret s = .next t ∧ Continues s t ∧ t.reg ipReg = s.reg raReg) ∧
  (∀ ia : RegIndex, encode (Pseudo.jr (fieldOf ia)) = [0x02, nibblePair 1 (fieldOf ia)] ∧
    ∀ s : State, ∃ t, exec (Pseudo.jr (fieldOf ia)) s = .next t ∧ Continues s t ∧
      t.reg ipReg = s.reg ia) ∧
  (∀ imm : Word, encode (Pseudo.jmp imm) = 0x12 :: 0x01 :: bytesOfWord imm ∧
    ∀ s : State, ∃ t, exec (Pseudo.jmp imm) s = .next t ∧ Continues s t ∧ t.reg ipReg = imm) ∧
  (∀ io : RegIndex, encode (Pseudo.zero (fieldOf io)) = [0x02, nibblePair (fieldOf io) 0] ∧
    ∀ s : State, s.reg zeroReg = 0 →
      ∃ t, exec (Pseudo.zero (fieldOf io)) s = .next t ∧ Continues s t ∧ t.reg io = 0) ∧
  ∀ ia io : RegIndex,
    encode (Pseudo.neg (fieldOf ia) (fieldOf io))
      = [0x11, nibblePair (fieldOf ia) 0, nibblePair 0 (fieldOf io)] ∧
    ∀ s : State, s.reg zeroReg = 0 →
      ∃ t, exec (Pseudo.neg (fieldOf ia) (fieldOf io)) s = .next t ∧ Continues s t ∧
        t.reg io = 0 - s.reg ia

/-! ## Memory -/

/-- R43, R44: the byte primitives. -/
def Obligations.ByteAccess : Prop :=
  ∀ (s : State) (addr : Nat) (b : Byte),
    (addr < s.memSize.toNat →
      s.memRead1 addr = .ok (Memory.read s.mem addr) ∧
      ∃ t, s.memWrite1 addr b = (t, none) ∧ Memory.read t.mem addr = b ∧
        KeepsMemOutside s t addr 1 ∧ KeepsRegs s t [] ∧ t.fault = s.fault) ∧
    (s.memSize.toNat ≤ addr →
      s.memRead1 addr = .error (.outOfBoundsAddress (BitVec.ofNat 64 addr)) ∧
      s.memWrite1 addr b = (s, some (.outOfBoundsAddress (BitVec.ofNat 64 addr))))

/-- R45: an 8-byte read gives the little-endian value, or raises at the first missing byte. -/
def Obligations.EightByteRead : Prop :=
  ∀ (s : State) (addr : Word),
    (addr.toNat + 7 < s.memSize.toNat → ∃ v, s.memRead8 addr = .ok v ∧
      ∀ k, k < 8 → v.extractLsb' (8 * k) 8 = Memory.read s.mem (addr.toNat + k)) ∧
    ∀ k, k < 8 → (∀ j, j < k → addr.toNat + j < s.memSize.toNat) →
      s.memSize.toNat ≤ addr.toNat + k →
      s.memRead8 addr = .error (.outOfBoundsAddress (BitVec.ofNat 64 (addr.toNat + k)))

/-- R46: an 8-byte write stores the little-endian bytes; one that runs out of memory raises at the first
missing byte, with the bytes before it written. -/
def Obligations.EightByteWrite : Prop :=
  ∀ (s : State) (addr v : Word),
    (addr.toNat + 7 < s.memSize.toNat → ∃ t, s.memWrite8 addr v = (t, none) ∧
      (∀ k, k < 8 → Memory.read t.mem (addr.toNat + k) = v.extractLsb' (8 * k) 8) ∧
      KeepsMemOutside s t addr.toNat 8 ∧ KeepsRegs s t [] ∧ t.fault = s.fault) ∧
    ∀ k, k < 8 → (∀ j, j < k → addr.toNat + j < s.memSize.toNat) →
      s.memSize.toNat ≤ addr.toNat + k →
      ∃ t, s.memWrite8 addr v
          = (t, some (.outOfBoundsAddress (BitVec.ofNat 64 (addr.toNat + k)))) ∧
        (∀ j, j < k → Memory.read t.mem (addr.toNat + j) = v.extractLsb' (8 * j) 8) ∧
        KeepsMemOutside s t addr.toNat k ∧ KeepsRegs s t [] ∧ t.fault = s.fault

/-- R53: a byte reads as the most recent write to it. -/
def Obligations.ReadSeesTheLatestWrite : Prop :=
  ∀ (m : Memory) (writes : List (Nat × Byte)) (addr : Nat),
    Memory.read (writes.foldl (fun m w => Memory.write m w.1 w.2) m) addr
      = match writes.reverse.find? (fun w => w.1 == addr) with
        | some w => w.2
        | none => Memory.read m addr

/-- Equal contents are equal data: the canonical form, the model's choice (log 13), is one for each memory. -/
def Obligations.CanonicalMemoryIsUnique : Prop :=
  ∀ m m' : Memory, Memory.wf m → Memory.wf m' →
    (∀ addr, Memory.read m addr = Memory.read m' addr) → m = m'

/-- WRITE then READ at one address gives the value back: in every state with the memory WRITE left, and any
register that holds the address (a step between the two has zeroed r0 and moved x[1]). -/
def Obligations.WriteThenReadRoundTrips : Prop :=
  ∀ (s : State) (ia ib : RegIndex), accessInBounds s (s.reg ib) →
    ∃ t, exec (.write (fieldOf ia) (fieldOf ib)) s = .next t ∧ Continues s t ∧
      ∀ (u : State) (ic io : RegIndex), u.mem = t.mem → u.memSize = t.memSize → u.reg ic = s.reg ib →
        ∃ u', exec (.read (fieldOf ic) (fieldOf io)) u = .next u' ∧ Continues u u' ∧
          u'.reg io = s.reg ia

/-- R56, R181: a byte that WRITE, PUSH or the host stores is what the next fetch of its address reads. -/
def Obligations.FetchSeesTheStore : Prop :=
  (∀ (s : State) (ia ib : RegIndex), accessInBounds s (s.reg ib) →
    ∃ t, exec (.write (fieldOf ia) (fieldOf ib)) s = .next t ∧
      ∀ k, k < 8 → FetchReads t ((s.reg ib).toNat + k) ((s.reg ia).extractLsb' (8 * k) 8)) ∧
  (∀ (s : State) (ia : RegIndex), accessInBounds s (pushAddress s) →
    ∃ t, exec (.push (fieldOf ia)) s = .next t ∧
      ∀ k, k < 8 → FetchReads t ((pushAddress s).toNat + k)
        ((if ia = spReg then pushAddress s else s.reg ia).extractLsb' (8 * k) 8)) ∧
  (∀ (s : State) (addr : Word) (b : Byte), addr.toNat < s.memSize.toNat →
    ∃ t, transact s (.hostWrite8 addr b) = (t, .done) ∧ FetchReads t addr.toNat b) ∧
  ∀ (s : State) (addr v : Word), accessInBounds s addr →
    ∃ t, transact s (.hostWrite64 addr v) = (t, .done) ∧
      ∀ k, k < 8 → FetchReads t (addr.toNat + k) (v.extractLsb' (8 * k) 8)

/-! ## Register fields -/

/-- R28, R83: fields 0..12 name the register of that number; any used field 13..15 raises before any effect,
the first in the order a, b, o, r; and no field but a used one raises. -/
def Obligations.RegisterFieldsAreValidated : Prop :=
  (∀ n : Nibble, n.toNat ≤ 12 → ∃ i : RegIndex, regIndex n = .ok i ∧ i.val = n.toNat) ∧
  (∀ n : Nibble, 13 ≤ n.toNat → regIndex n = .error (.invalidRegisterIndex n)) ∧
  (∀ i : Instr, RaisesFirstInvalid i (usedFields i)) ∧
  ∀ (i : Instr) (s t : State), s.fault = none → firstInvalid (usedFields i) = none →
    exec i s = .next t → ∀ n, t.fault ≠ some (.invalidRegisterIndex n)

/-! ## Outcomes -/

/-- R141: the codes of the stop reasons, which opcode bytes raise which, and that a stop records nothing. -/
def Obligations.StopReasonOfEveryOpcode : Prop :=
  [StopReason.halt, .invalidInstruction, .invalidInstructionCategory, .invalidInvalidInstruction,
    .invalidArithmeticInstruction, .invalidMemoryInstruction, .invalidControlFlowInstruction].map
      StopReason.code = [0, 1, 2, 3, 4, 5, 6] ∧
  ∀ (op : Byte) (ops : List Byte) (s : State), ∃ t, exec (instrOf op ops) s = .next t ∧
    (∀ r, t.response = some (.stop r) → StopsIn s t r) ∧
    ∀ r, t.response = some (.stop r) ↔
      (r = .halt ∧ op = 0x03) ∨ (r = .invalidInstruction ∧ op = 0x00) ∨
      (r = .invalidInstructionCategory ∧ 4 ≤ (lowNibble op).toNat) ∨
      (r = .invalidInvalidInstruction ∧ lowNibble op = 0 ∧ 1 ≤ (highNibble op).toNat) ∨
      (r = .invalidArithmeticInstruction ∧ lowNibble op = 1 ∧ 8 ≤ (highNibble op).toNat) ∨
      (r = .invalidMemoryInstruction ∧ lowNibble op = 2 ∧ 6 ≤ (highNibble op).toNat) ∨
      (r = .invalidControlFlowInstruction ∧ lowNibble op = 3 ∧ 2 ≤ (highNibble op).toNat)

/-- R142: the codes and infos of the fault kinds, and that the info of a raised fault is its cause: the address
of the byte that failed, in the fetch or as the first missing one of the data access, or the first bad field. -/
def Obligations.FaultInfoIsTheCause : Prop :=
  (∀ addr : Word, (Fault.outOfBoundsAddress addr).code = 0 ∧
    (Fault.outOfBoundsAddress addr).info = addr.toNat) ∧
  (∀ n : Nibble, (Fault.invalidRegisterIndex n).code = 1 ∧
    (Fault.invalidRegisterIndex n).info = n.toNat) ∧
  ∀ (s t : State) (f : Fault), s.fault = none → step s = .next t → t.fault = some f →
    (∃ k, FetchCutAt s k ∧ f = .outOfBoundsAddress (BitVec.ofNat 64 ((s.reg ipReg).toNat + k))) ∨
    ∃ bytes i, CodeAt s bytes ∧ decode bytes = .ok (i, []) ∧
      EffectCause (afterFetch s bytes.length) i f

/-! ## The Invalid category and the stop spaces -/

/-- R86: INVALID. -/
def Obligations.InvalidStops : Prop :=
  FetchedAs [0x00] .invalid ∧
  ∀ s : State, ∃ t, exec .invalid s = .next t ∧ StopsIn s t .invalidInstruction

/-- R87: the unassigned numbers of the Invalid category. -/
def Obligations.UnassignedInvalidStops : Prop :=
  (∀ ins : Nibble, 1 ≤ ins.toNat → FetchedAs [nibblePair ins 0x0] (instrOf (nibblePair ins 0x0) []) ∧
    ∀ s : State, ∃ t, exec (instrOf (nibblePair ins 0x0) []) s = .next t ∧
      StopsIn s t .invalidInvalidInstruction) ∧
  (∀ s : State, ∃ t, exec .stopInvalidInvalid1 s = .next t ∧ StopsIn s t .invalidInvalidInstruction) ∧
  (∀ (x : BitVec 1) (s : State), ∃ t, exec (.stopInvalidInvalid2 x) s = .next t ∧
    StopsIn s t .invalidInvalidInstruction) ∧
  (∀ (x : BitVec 2) (s : State), ∃ t, exec (.stopInvalidInvalid4 x) s = .next t ∧
    StopsIn s t .invalidInvalidInstruction) ∧
  ∀ (x : BitVec 3) (s : State), ∃ t, exec (.stopInvalidInvalid8 x) s = .next t ∧
    StopsIn s t .invalidInvalidInstruction

/-- R88: the unassigned categories. -/
def Obligations.UnassignedCategoryStops : Prop :=
  (∀ ins cat : Nibble, 4 ≤ cat.toNat →
    FetchedAs [nibblePair ins cat] (instrOf (nibblePair ins cat) []) ∧
    ∀ s : State, ∃ t, exec (instrOf (nibblePair ins cat) []) s = .next t ∧
      StopsIn s t .invalidInstructionCategory) ∧
  (∀ (ins : Nibble) (x : BitVec 2) (s : State), ∃ t, exec (.stopInvalidCategory4 ins x) s = .next t ∧
    StopsIn s t .invalidInstructionCategory) ∧
  ∀ (ins : Nibble) (x : BitVec 3) (s : State), ∃ t, exec (.stopInvalidCategory8 ins x) s = .next t ∧
    StopsIn s t .invalidInstructionCategory

/-- R98: the unassigned numbers of the Arithmetic category. -/
def Obligations.UnassignedArithmeticStops : Prop :=
  (∀ ins : Nibble, 8 ≤ ins.toNat → FetchedAs [nibblePair ins 0x1] (instrOf (nibblePair ins 0x1) []) ∧
    ∀ s : State, ∃ t, exec (instrOf (nibblePair ins 0x1) []) s = .next t ∧
      StopsIn s t .invalidArithmeticInstruction) ∧
  ∀ (x : BitVec 3) (s : State), ∃ t, exec (.stopInvalidArithmetic8 x) s = .next t ∧
    StopsIn s t .invalidArithmeticInstruction

/-- R116: the unassigned numbers of the Memory category. -/
def Obligations.UnassignedMemoryStops : Prop :=
  (∀ ins : Nibble, 6 ≤ ins.toNat → FetchedAs [nibblePair ins 0x2] (instrOf (nibblePair ins 0x2) []) ∧
    ∀ s : State, ∃ t, exec (instrOf (nibblePair ins 0x2) []) s = .next t ∧
      StopsIn s t .invalidMemoryInstruction) ∧
  (∀ (x : BitVec 1) (s : State), ∃ t, exec (.stopInvalidMemory6 x) s = .next t ∧
    StopsIn s t .invalidMemoryInstruction) ∧
  ∀ (x : BitVec 3) (s : State), ∃ t, exec (.stopInvalidMemory8 x) s = .next t ∧
    StopsIn s t .invalidMemoryInstruction

/-- R132: the unassigned numbers of the ControlFlow category. -/
def Obligations.UnassignedControlFlowStops : Prop :=
  (∀ ins : Nibble, 2 ≤ ins.toNat → FetchedAs [nibblePair ins 0x3] (instrOf (nibblePair ins 0x3) []) ∧
    ∀ s : State, ∃ t, exec (instrOf (nibblePair ins 0x3) []) s = .next t ∧
      StopsIn s t .invalidControlFlowInstruction) ∧
  (∀ (x : BitVec 1) (s : State), ∃ t, exec (.stopInvalidControlFlow2 x) s = .next t ∧
    StopsIn s t .invalidControlFlowInstruction) ∧
  (∀ (x : BitVec 2) (s : State), ∃ t, exec (.stopInvalidControlFlow4 x) s = .next t ∧
    StopsIn s t .invalidControlFlowInstruction) ∧
  ∀ (x : BitVec 3) (s : State), ∃ t, exec (.stopInvalidControlFlow8 x) s = .next t ∧
    StopsIn s t .invalidControlFlowInstruction

/-! ## The Arithmetic category -/

/-- R90: ADD. -/
def Obligations.AddGivesTheSum : Prop :=
  (∀ a b o u : Nibble, FetchedAs [0x01, nibblePair b a, nibblePair u o] (.add a b o)) ∧
  (∀ a b o : Nibble, RaisesFirstInvalid (.add a b o) [a, b, o]) ∧
  ∀ (s : State) (ia ib io : RegIndex), ∃ t,
    exec (.add (fieldOf ia) (fieldOf ib) (fieldOf io)) s = .next t ∧
    (t.reg io).toNat = ((s.reg ia).toNat + (s.reg ib).toNat) % 2 ^ 64 ∧
    Continues s t ∧ KeepsRegs s t [io] ∧ KeepsMem s t

/-- R91: SUB. -/
def Obligations.SubGivesTheDifference : Prop :=
  (∀ a b o u : Nibble, FetchedAs [0x11, nibblePair b a, nibblePair u o] (.sub a b o)) ∧
  (∀ a b o : Nibble, RaisesFirstInvalid (.sub a b o) [a, b, o]) ∧
  ∀ (s : State) (ia ib io : RegIndex), ∃ t,
    exec (.sub (fieldOf ia) (fieldOf ib) (fieldOf io)) s = .next t ∧
    ((t.reg io).toNat : Int) = (((s.reg ia).toNat : Int) - ((s.reg ib).toNat : Int)) % 2 ^ 64 ∧
    Continues s t ∧ KeepsRegs s t [io] ∧ KeepsMem s t

/-- R92: MUL. -/
def Obligations.MulGivesTheLowProduct : Prop :=
  (∀ a b o u : Nibble, FetchedAs [0x21, nibblePair b a, nibblePair u o] (.mul a b o)) ∧
  (∀ a b o : Nibble, RaisesFirstInvalid (.mul a b o) [a, b, o]) ∧
  ∀ (s : State) (ia ib io : RegIndex), ∃ t,
    exec (.mul (fieldOf ia) (fieldOf ib) (fieldOf io)) s = .next t ∧
    (t.reg io).toNat = ((s.reg ia).toNat * (s.reg ib).toNat) % 2 ^ 64 ∧
    Continues s t ∧ KeepsRegs s t [io] ∧ KeepsMem s t

/-- R93: DIVMOD, with a zero divisor giving 0 and 0, the operands read once and the remainder written last. -/
def Obligations.DivmodGivesQuotientAndRemainder : Prop :=
  (∀ a b o r : Nibble, FetchedAs [0x31, nibblePair b a, nibblePair r o] (.divmod a b o r)) ∧
  (∀ a b o r : Nibble, RaisesFirstInvalid (.divmod a b o r) [a, b, o, r]) ∧
  ∀ (s : State) (ia ib io ir : RegIndex), ∃ t,
    exec (.divmod (fieldOf ia) (fieldOf ib) (fieldOf io) (fieldOf ir)) s = .next t ∧
    (io ≠ ir → (t.reg io).toNat =
      if (s.reg ib).toNat = 0 then 0 else (s.reg ia).toNat / (s.reg ib).toNat) ∧
    (t.reg ir).toNat =
      (if (s.reg ib).toNat = 0 then 0 else (s.reg ia).toNat % (s.reg ib).toNat) ∧
    Continues s t ∧ KeepsRegs s t [io, ir] ∧ KeepsMem s t

/-- R100: the corners of DIVMOD, row by row. -/
def Obligations.DivmodCorners : Prop :=
  ∀ va vb q m : Word,
    (va, vb, q, m) ∈ divmodCorners →
    ∀ (s : State) (ia ib io ir : RegIndex), s.reg ia = va → s.reg ib = vb → io ≠ ir →
      ∃ t, exec (.divmod (fieldOf ia) (fieldOf ib) (fieldOf io) (fieldOf ir)) s = .next t ∧
        t.reg io = q ∧ t.reg ir = m ∧ Continues s t

/-- R94: AND. -/
def Obligations.AndIsBitwise : Prop :=
  (∀ a b o u : Nibble, FetchedAs [0x41, nibblePair b a, nibblePair u o] (.and a b o)) ∧
  (∀ a b o : Nibble, RaisesFirstInvalid (.and a b o) [a, b, o]) ∧
  ∀ (s : State) (ia ib io : RegIndex), ∃ t,
    exec (.and (fieldOf ia) (fieldOf ib) (fieldOf io)) s = .next t ∧
    (∀ k, (t.reg io).getLsbD k = ((s.reg ia).getLsbD k && (s.reg ib).getLsbD k)) ∧
    Continues s t ∧ KeepsRegs s t [io] ∧ KeepsMem s t

/-- R95: OR. -/
def Obligations.OrIsBitwise : Prop :=
  (∀ a b o u : Nibble, FetchedAs [0x51, nibblePair b a, nibblePair u o] (.or a b o)) ∧
  (∀ a b o : Nibble, RaisesFirstInvalid (.or a b o) [a, b, o]) ∧
  ∀ (s : State) (ia ib io : RegIndex), ∃ t,
    exec (.or (fieldOf ia) (fieldOf ib) (fieldOf io)) s = .next t ∧
    (∀ k, (t.reg io).getLsbD k = ((s.reg ia).getLsbD k || (s.reg ib).getLsbD k)) ∧
    Continues s t ∧ KeepsRegs s t [io] ∧ KeepsMem s t

/-- R96: XOR. -/
def Obligations.XorIsBitwise : Prop :=
  (∀ a b o u : Nibble, FetchedAs [0x61, nibblePair b a, nibblePair u o] (.xor a b o)) ∧
  (∀ a b o : Nibble, RaisesFirstInvalid (.xor a b o) [a, b, o]) ∧
  ∀ (s : State) (ia ib io : RegIndex), ∃ t,
    exec (.xor (fieldOf ia) (fieldOf ib) (fieldOf io)) s = .next t ∧
    (∀ k, (t.reg io).getLsbD k = ((s.reg ia).getLsbD k ^^ (s.reg ib).getLsbD k)) ∧
    Continues s t ∧ KeepsRegs s t [io] ∧ KeepsMem s t

/-- R97: NOT. -/
def Obligations.NotComplements : Prop :=
  (∀ a o : Nibble, FetchedAs [0x71, nibblePair o a] (.not a o)) ∧
  (∀ a o : Nibble, RaisesFirstInvalid (.not a o) [a, o]) ∧
  ∀ (s : State) (ia io : RegIndex), ∃ t,
    exec (.not (fieldOf ia) (fieldOf io)) s = .next t ∧
    (∀ k, k < 64 → (t.reg io).getLsbD k = !(s.reg ia).getLsbD k) ∧
    Continues s t ∧ KeepsRegs s t [io] ∧ KeepsMem s t

/-- Two steps that run ADD and then SUB of the same operand give back the value the first operand had. Where
the sum went to r0, the second step has zeroed it (R23); where it overwrote the operand, the difference is 0;
where the operand is r1, the second step reads it 3 bytes on (R31); where the sum went to r1, ADD is a jump. -/
def Obligations.SubUndoesAdd : Prop :=
  ∀ (s : State) (ia ib io id : RegIndex) (u w : Nibble), s.fault = none →
    CodeAt s [0x01, nibblePair (fieldOf ib) (fieldOf ia), nibblePair u (fieldOf io),
      0x11, nibblePair (fieldOf ib) (fieldOf io), nibblePair w (fieldOf id)] →
    (io ≠ ipReg → ∃ t t', step s = .next t ∧ step t = .next t' ∧ Continues s t' ∧
      t'.reg id = (if io = zeroReg then
          0 - (if ib = ipReg then s.reg ipReg + 6 else (afterFetch s 3).reg ib)
        else if io = ib then 0
        else if ib = ipReg then (afterFetch s 3).reg ia - 3
        else (afterFetch s 3).reg ia) ∧
      (id ≠ ipReg → t'.reg ipReg = s.reg ipReg + 6) ∧
      KeepsRegs s t' [zeroReg, ipReg, io, id] ∧ KeepsMem s t') ∧
    (io = ipReg → ∃ t, step s = .next t ∧ Continues s t ∧
      t.reg ipReg = (afterFetch s 3).reg ia + (afterFetch s 3).reg ib)

/-! ## The Memory category -/

/-- R110: COPY. -/
def Obligations.CopyMovesARegister : Prop :=
  (∀ a b : Nibble, FetchedAs [0x02, nibblePair b a] (.copy a b)) ∧
  (∀ a b : Nibble, RaisesFirstInvalid (.copy a b) [a, b]) ∧
  ∀ (s : State) (ia ib : RegIndex), ∃ t,
    exec (.copy (fieldOf ia) (fieldOf ib)) s = .next t ∧ t.reg ib = s.reg ia ∧
    Continues s t ∧ KeepsRegs s t [ib] ∧ KeepsMem s t

/-- R111, R64: LOAD, whose immediate is the 8 bytes after the operand byte, least significant first. -/
def Obligations.LoadWritesTheImmediate : Prop :=
  (∀ (a u : Nibble) (imm : Word) (bytes : List Byte), bytes.length = 8 →
    (∀ k, k < 8 → bytes.getD k 0 = imm.extractLsb' (8 * k) 8) →
    FetchedAs (0x12 :: nibblePair u a :: bytes) (.load a imm)) ∧
  (∀ (a : Nibble) (imm : Word), RaisesFirstInvalid (.load a imm) [a]) ∧
  ∀ (s : State) (ia : RegIndex) (imm : Word), ∃ t,
    exec (.load (fieldOf ia) imm) s = .next t ∧ t.reg ia = imm ∧
    Continues s t ∧ KeepsRegs s t [ia] ∧ KeepsMem s t

/-- R112: READ. -/
def Obligations.ReadLoadsEightBytes : Prop :=
  (∀ a b : Nibble, FetchedAs [0x22, nibblePair b a] (.read a b)) ∧
  (∀ a b : Nibble, RaisesFirstInvalid (.read a b) [a, b]) ∧
  ∀ (s : State) (ia ib : RegIndex),
    (accessInBounds s (s.reg ia) → ∃ t, exec (.read (fieldOf ia) (fieldOf ib)) s = .next t ∧
      (∀ k, k < 8 → (t.reg ib).extractLsb' (8 * k) 8 = Memory.read s.mem ((s.reg ia).toNat + k)) ∧
      Continues s t ∧ KeepsRegs s t [ib] ∧ KeepsMem s t) ∧
    ∀ k, k < 8 → (∀ j, j < k → (s.reg ia).toNat + j < s.memSize.toNat) →
      s.memSize.toNat ≤ (s.reg ia).toNat + k →
      ∃ t, exec (.read (fieldOf ia) (fieldOf ib)) s = .next t ∧
        FaultsIn s t (.outOfBoundsAddress (BitVec.ofNat 64 ((s.reg ia).toNat + k)))

/-- R113: WRITE, with the partial effect of a straddling write. -/
def Obligations.WriteStoresEightBytes : Prop :=
  (∀ a b : Nibble, FetchedAs [0x32, nibblePair b a] (.write a b)) ∧
  (∀ a b : Nibble, RaisesFirstInvalid (.write a b) [a, b]) ∧
  ∀ (s : State) (ia ib : RegIndex),
    (accessInBounds s (s.reg ib) → ∃ t, exec (.write (fieldOf ia) (fieldOf ib)) s = .next t ∧
      (∀ k, k < 8 → Memory.read t.mem ((s.reg ib).toNat + k) = (s.reg ia).extractLsb' (8 * k) 8) ∧
      Continues s t ∧ KeepsRegs s t [] ∧ KeepsMemOutside s t (s.reg ib).toNat 8) ∧
    ∀ k, k < 8 → (∀ j, j < k → (s.reg ib).toNat + j < s.memSize.toNat) →
      s.memSize.toNat ≤ (s.reg ib).toNat + k →
      ∃ t, exec (.write (fieldOf ia) (fieldOf ib)) s = .next t ∧
        Latches t (.outOfBoundsAddress (BitVec.ofNat 64 ((s.reg ib).toNat + k))) ∧
        (∀ j, j < k →
          Memory.read t.mem ((s.reg ib).toNat + j) = (s.reg ia).extractLsb' (8 * j) 8) ∧
        KeepsRegs s t [] ∧ KeepsMemOutside s t (s.reg ib).toNat k

/-- R114: PUSH. The decremented sp is what `push sp` stores; a PUSH that faults has decremented sp and stored
its in-bounds bytes. -/
def Obligations.PushStoresBelowSp : Prop :=
  (∀ a u : Nibble, FetchedAs [0x42, nibblePair u a] (.push a)) ∧
  (∀ a : Nibble, RaisesFirstInvalid (.push a) [a]) ∧
  ∀ (s : State) (ia : RegIndex) (addr v : Word), addr = s.reg spReg - 8 →
    v = (if ia = spReg then addr else s.reg ia) →
    (accessInBounds s addr → ∃ t, exec (.push (fieldOf ia)) s = .next t ∧ t.reg spReg = addr ∧
      (∀ k, k < 8 → Memory.read t.mem (addr.toNat + k) = v.extractLsb' (8 * k) 8) ∧
      Continues s t ∧ KeepsRegs s t [spReg] ∧ KeepsMemOutside s t addr.toNat 8) ∧
    ∀ k, k < 8 → (∀ j, j < k → addr.toNat + j < s.memSize.toNat) →
      s.memSize.toNat ≤ addr.toNat + k →
      ∃ t, exec (.push (fieldOf ia)) s = .next t ∧ t.reg spReg = addr ∧
        Latches t (.outOfBoundsAddress (BitVec.ofNat 64 (addr.toNat + k))) ∧
        (∀ j, j < k → Memory.read t.mem (addr.toNat + j) = v.extractLsb' (8 * j) 8) ∧
        KeepsRegs s t [spReg] ∧ KeepsMemOutside s t addr.toNat k

/-- R115: POP. After `pop sp`, sp is the popped value plus 8; a POP that faults writes nothing. -/
def Obligations.PopLoadsFromSp : Prop :=
  (∀ a u : Nibble, FetchedAs [0x52, nibblePair u a] (.pop a)) ∧
  (∀ a : Nibble, RaisesFirstInvalid (.pop a) [a]) ∧
  ∀ (s : State) (ia : RegIndex),
    (accessInBounds s (s.reg spReg) → ∃ t v, exec (.pop (fieldOf ia)) s = .next t ∧
      (∀ k, k < 8 → v.extractLsb' (8 * k) 8 = Memory.read s.mem ((s.reg spReg).toNat + k)) ∧
      (ia ≠ spReg → t.reg ia = v ∧ t.reg spReg = s.reg spReg + 8) ∧
      (ia = spReg → t.reg spReg = v + 8) ∧
      Continues s t ∧ KeepsRegs s t [ia, spReg] ∧ KeepsMem s t) ∧
    ∀ k, k < 8 → (∀ j, j < k → (s.reg spReg).toNat + j < s.memSize.toNat) →
      s.memSize.toNat ≤ (s.reg spReg).toNat + k →
      ∃ t, exec (.pop (fieldOf ia)) s = .next t ∧
        FaultsIn s t (.outOfBoundsAddress (BitVec.ofNat 64 ((s.reg spReg).toNat + k)))

/-- R115: two steps that PUSH and then POP one register other than r1 restore it and sp. -/
def Obligations.PushThenPopRestores : Prop :=
  ∀ (s : State) (ia : RegIndex) (u v : Nibble), ia ≠ ipReg → s.fault = none →
    CodeAt s [0x42, nibblePair u (fieldOf ia), 0x52, nibblePair v (fieldOf ia)] →
    8 ≤ (s.reg spReg).toNat → (s.reg spReg).toNat ≤ s.memSize.toNat →
    ((s.reg spReg).toNat ≤ (s.reg ipReg).toNat + 2 ∨
      (s.reg ipReg).toNat + 4 ≤ (s.reg spReg).toNat - 8) →
    ∃ t t', step s = .next t ∧ step t = .next t' ∧ Continues s t' ∧
      (ia ≠ zeroReg → t'.reg ia = s.reg ia) ∧ t'.reg zeroReg = 0 ∧
      t'.reg spReg = s.reg spReg ∧ t'.reg ipReg = s.reg ipReg + 4 ∧
      KeepsRegs s t' [zeroReg, ipReg] ∧
      KeepsMemOutside s t' ((s.reg spReg).toNat - 8) 8

/-! ## The ControlFlow category -/

/-- R130: HALT. -/
def Obligations.HaltStops : Prop :=
  FetchedAs [0x03] .halt ∧
  ∀ s : State, ∃ t, exec .halt s = .next t ∧ StopsIn s t .halt

/-- R131: CALL. The target is read after ra is written, so `call ra` falls through. -/
def Obligations.CallSavesTheReturnAddress : Prop :=
  (∀ a u : Nibble, FetchedAs [0x13, nibblePair u a] (.call a)) ∧
  (∀ a : Nibble, RaisesFirstInvalid (.call a) [a]) ∧
  ∀ (s : State) (ia : RegIndex), ∃ t, exec (.call (fieldOf ia)) s = .next t ∧
    t.reg raReg = s.reg ipReg ∧
    t.reg ipReg = (if ia = raReg then s.reg ipReg else s.reg ia) ∧
    Continues s t ∧ KeepsRegs s t [raReg, ipReg] ∧ KeepsMem s t

/-! ## The host -/

/-- R177: the host's accesses between steps, and the ones refused (which address a refusal names is the model's
choice, log 9). -/
def Obligations.HostAccess : Prop :=
  ∀ (s : State) (addr v : Word) (b : Byte) (i : Nat),
    (addr.toNat < s.memSize.toNat →
      transact s (.hostRead8 addr) = (s, .byte (Memory.read s.mem addr.toNat)) ∧
      ∃ t, transact s (.hostWrite8 addr b) = (t, .done) ∧ Memory.read t.mem addr.toNat = b ∧
        KeepsMemOutside s t addr.toNat 1 ∧ KeepsRegs s t [] ∧ t.fault = s.fault) ∧
    (s.memSize.toNat ≤ addr.toNat →
      transact s (.hostRead8 addr) = (s, .refused (.hostAddressOutOfRange addr)) ∧
      transact s (.hostWrite8 addr b) = (s, .refused (.hostAddressOutOfRange addr))) ∧
    (accessInBounds s addr →
      (∃ w, transact s (.hostRead64 addr) = (s, .word w) ∧
        ∀ k, k < 8 → w.extractLsb' (8 * k) 8 = Memory.read s.mem (addr.toNat + k)) ∧
      ∃ t, transact s (.hostWrite64 addr v) = (t, .done) ∧
        (∀ k, k < 8 → Memory.read t.mem (addr.toNat + k) = v.extractLsb' (8 * k) 8) ∧
        KeepsMemOutside s t addr.toNat 8 ∧ KeepsRegs s t [] ∧ t.fault = s.fault) ∧
    (¬ accessInBounds s addr → ∃ r, transact s (.hostRead64 addr) = (s, .refused r) ∧
      transact s (.hostWrite64 addr v) = (s, .refused r)) ∧
    (∀ h : i < 13, transact s (.hostReadReg i) = (s, .word (s.reg ⟨i, h⟩)) ∧
      ∃ t, transact s (.hostWriteReg i v) = (t, .done) ∧ t.reg ⟨i, h⟩ = v ∧
        KeepsRegs s t [⟨i, h⟩] ∧ KeepsMem s t ∧ t.fault = s.fault) ∧
    (13 ≤ i → transact s (.hostReadReg i) = (s, .refused (.hostRegisterIndex i)) ∧
      transact s (.hostWriteReg i v) = (s, .refused (.hostRegisterIndex i)))

/-- R178: a run ends at its first outcome other than Continue, and its end says which; more fuel does not
change an end. -/
def Obligations.RunEndsAtTheFirstStop : Prop :=
  ∀ (n : Nat) (s : State),
    (∀ t, run n s = .halted t → t.response = some (.stop .halt) ∧ t.fault = none) ∧
    (∀ r t, run n s = .stopped r t → r ≠ .halt ∧ t.response = some (.stop r) ∧ t.fault = none) ∧
    (∀ t, run n s = .running t → n = 0 ∨ t.response = some .continues ∧ t.fault = none) ∧
    (∀ f, run n s = .faulted f → ∃ m u, m < n ∧ run m s = .running u ∧
      (transact u .step).2 = .outcome (.fault f)) ∧
    (∀ t, run n s ≠ .noOutcome t) ∧
    ∀ k, (∀ t, run n s ≠ .running t) → run (n + k) s = run n s
end

