-- ==== Sys2Proof/Laws/Bytes.lean ====
section
/-! SUPPORT. The bit-field and byte-order helpers of the decoder and the memory primitives. -/

namespace Sys2Proof

@[simp] theorem lowNibble_pair (hi lo : Nibble) : lowNibble (nibblePair hi lo) = lo := by
  revert hi lo; decide

@[simp] theorem highNibble_pair (hi lo : Nibble) : highNibble (nibblePair hi lo) = hi := by
  revert hi lo; decide

theorem pair_nibbles (b : Byte) : nibblePair (highNibble b) (lowNibble b) = b := by
  revert b; decide

@[simp] theorem length_bytesOfWord (v : Word) : (bytesOfWord v).length = 8 := by simp [bytesOfWord]

/-- Reading back the 8 bytes of a value gives the value (R45, R46). -/
theorem wordOfBytes_bytesOfWord (v : Word) : wordOfBytes (bytesOfWord v) = v := by
  apply BitVec.eq_of_getLsbD_eq
  intro i hi
  simp only [bytesOfWord, List.range, List.range.loop, List.map, wordOfBytes]
  interval_cases i <;> simp

/-- Byte k of a value. -/
theorem getD_bytesOfWord (v : Word) (k : Nat) (hk : k < 8) :
    (bytesOfWord v).getD k 0 = v.extractLsb' (8 * k) 8 := by
  simp [bytesOfWord, List.getD, hk]

/-- Splitting the value of 8 bytes gives the bytes. -/
theorem bytesOfWord_wordOfBytes (bs : List Byte) (h : bs.length = 8) : bytesOfWord (wordOfBytes bs) = bs := by
  match bs, h with
  | [b0, b1, b2, b3, b4, b5, b6, b7], _ =>
    simp only [bytesOfWord, List.range, List.range.loop, List.map, wordOfBytes, List.cons.injEq, and_true]
    refine ⟨?_, ?_, ?_, ?_, ?_, ?_, ?_, ?_⟩ <;>
    · apply BitVec.eq_of_getLsbD_eq
      intro i hi
      interval_cases i <;> simp

theorem operandCount_le (op : Byte) : operandCount op ≤ 9 := by
  revert op; decide

end Sys2Proof
end

