-- ==== Sys2Proof/Laws/Decode.lean ====
section
/-! SUPPORT. What the decoder can do, said once (R65, R73). -/

namespace Sys2Proof

/-- Everything decoding a non-empty list can do. -/
theorem decode_cons (op : Byte) (rest : List Byte) :
    (rest.length < operandCount op ∧
      decode (op :: rest) = .error (.truncated op (operandCount op) rest.length)) ∨
    (operandCount op ≤ rest.length ∧
      decode (op :: rest)
        = .ok (instrOf op (rest.take (operandCount op)), rest.drop (operandCount op))) := by
  by_cases h : rest.length < operandCount op
  · exact .inl ⟨h, by simp [decode, h]⟩
  · exact .inr ⟨by omega, by simp [decode, h]⟩

/-- Operand bytes of the right number decode with what follows left over. -/
theorem decode_append (op : Byte) (ops rest : List Byte) (h : ops.length = operandCount op) :
    decode (op :: (ops ++ rest)) = .ok (instrOf op ops, rest) := by
  have : ¬ (ops ++ rest).length < operandCount op := by simp; omega
  rw [decode, if_neg this]
  simp [← h]

/-! The instruction of each defined opcode (R63, R66), fields taken from where the format puts them. -/

theorem instrOf_add (a b o u : Nibble) :
    instrOf 0x01 [nibblePair b a, nibblePair u o] = .add a b o := by
  change Instr.add (lowNibble (nibblePair b a)) (highNibble (nibblePair b a))
    (lowNibble (nibblePair u o)) = _
  simp

theorem instrOf_sub (a b o u : Nibble) :
    instrOf 0x11 [nibblePair b a, nibblePair u o] = .sub a b o := by
  change Instr.sub (lowNibble (nibblePair b a)) (highNibble (nibblePair b a))
    (lowNibble (nibblePair u o)) = _
  simp

theorem instrOf_mul (a b o u : Nibble) :
    instrOf 0x21 [nibblePair b a, nibblePair u o] = .mul a b o := by
  change Instr.mul (lowNibble (nibblePair b a)) (highNibble (nibblePair b a))
    (lowNibble (nibblePair u o)) = _
  simp

theorem instrOf_and (a b o u : Nibble) :
    instrOf 0x41 [nibblePair b a, nibblePair u o] = .and a b o := by
  change Instr.and (lowNibble (nibblePair b a)) (highNibble (nibblePair b a))
    (lowNibble (nibblePair u o)) = _
  simp

theorem instrOf_or (a b o u : Nibble) :
    instrOf 0x51 [nibblePair b a, nibblePair u o] = .or a b o := by
  change Instr.or (lowNibble (nibblePair b a)) (highNibble (nibblePair b a))
    (lowNibble (nibblePair u o)) = _
  simp

theorem instrOf_xor (a b o u : Nibble) :
    instrOf 0x61 [nibblePair b a, nibblePair u o] = .xor a b o := by
  change Instr.xor (lowNibble (nibblePair b a)) (highNibble (nibblePair b a))
    (lowNibble (nibblePair u o)) = _
  simp

theorem instrOf_divmod (a b o r : Nibble) :
    instrOf 0x31 [nibblePair b a, nibblePair r o] = .divmod a b o r := by
  change Instr.divmod (lowNibble (nibblePair b a)) (highNibble (nibblePair b a))
    (lowNibble (nibblePair r o)) (highNibble (nibblePair r o)) = _
  simp

theorem instrOf_not (a o : Nibble) :
    instrOf 0x71 [nibblePair o a] = .not a o := by
  change Instr.not (lowNibble (nibblePair o a)) (highNibble (nibblePair o a)) = _
  simp

theorem instrOf_copy (a b : Nibble) :
    instrOf 0x02 [nibblePair b a] = .copy a b := by
  change Instr.copy (lowNibble (nibblePair b a)) (highNibble (nibblePair b a)) = _
  simp

theorem instrOf_read (a b : Nibble) :
    instrOf 0x22 [nibblePair b a] = .read a b := by
  change Instr.read (lowNibble (nibblePair b a)) (highNibble (nibblePair b a)) = _
  simp

theorem instrOf_write (a b : Nibble) :
    instrOf 0x32 [nibblePair b a] = .write a b := by
  change Instr.write (lowNibble (nibblePair b a)) (highNibble (nibblePair b a)) = _
  simp

theorem instrOf_load (a u : Nibble) (imm : List Byte) :
    instrOf 0x12 (nibblePair u a :: imm) = .load a (wordOfBytes imm) := by
  change Instr.load (lowNibble (nibblePair u a)) (wordOfBytes imm) = _
  simp

theorem instrOf_push (a u : Nibble) :
    instrOf 0x42 [nibblePair u a] = .push a := by
  change Instr.push (lowNibble (nibblePair u a)) = _
  simp

theorem instrOf_pop (a u : Nibble) :
    instrOf 0x52 [nibblePair u a] = .pop a := by
  change Instr.pop (lowNibble (nibblePair u a)) = _
  simp

theorem instrOf_call (a u : Nibble) :
    instrOf 0x13 [nibblePair u a] = .call a := by
  change Instr.call (lowNibble (nibblePair u a)) = _
  simp

/-! The canonical form, format by format (R71). -/

theorem canonical_r1 {op : Byte} (h : formatOf op = .r1) (b1 : Byte) :
    canonical [op, b1] = [op, nibblePair 0 (lowNibble b1)] := by simp [canonical, h]

theorem canonical_r3 {op : Byte} (h : formatOf op = .r3) (b1 b2 : Byte) :
    canonical [op, b1, b2] = [op, b1, nibblePair 0 (lowNibble b2)] := by simp [canonical, h]

theorem canonical_ri {op : Byte} (h : formatOf op = .ri) (b1 : Byte) (imm : List Byte) :
    canonical (op :: b1 :: imm) = op :: nibblePair 0 (lowNibble b1) :: imm := by simp [canonical, h]

theorem canonical_used {op : Byte} (h : formatOf op = .n ∨ formatOf op = .r2 ∨ formatOf op = .r4)
    (ops : List Byte) : canonical (op :: ops) = op :: ops := by
  rcases h with h | h | h <;> simp [canonical, h]

/-- Every opcode byte is one of the 15 that call for operand bytes, or is its whole instruction. -/
theorem opcode_cases (op : Byte) :
    (formatOf op = .n ∧ encode (instrOf op []) = [op]) ∨
      op ∈ ([0x01, 0x11, 0x21, 0x31, 0x41, 0x51, 0x61, 0x71, 0x02, 0x12, 0x22, 0x32, 0x42, 0x52,
        0x13] : List Byte) := by
  revert op; decide

end Sys2Proof
end

