-- ==== Sys2Proof/Laws/Memory.lean ====
section
/-! SUPPORT. Memory as data: reading after writing, and the canonical form. -/

namespace Sys2Proof.Machine

theorem read_insert (m : Memory) (a k : Nat) (b : Byte) :
    Memory.read (Memory.insert m a b) k = if a = k then b else Memory.read m k := by
  induction m with
  | nil => simp [Memory.insert, Memory.read]
  | cons c rest ih =>
    obtain ⟨c1, c2⟩ := c
    simp only [Memory.insert]
    split
    · simp [Memory.read]
    · split
      · subst_vars
        simp only [Memory.read]
        split <;> simp_all
      · simp only [Memory.read, ih]
        split <;> split <;> simp_all

theorem read_filter (m : Memory) (a k : Nat) :
    Memory.read (m.filter fun c => c.1 != a) k
      = if a = k then Config.unlistedByte else Memory.read m k := by
  induction m with
  | nil => simp [Memory.read]
  | cons c rest ih =>
    obtain ⟨c1, c2⟩ := c
    by_cases hc : c1 = a <;> by_cases hk : a = k <;> by_cases hck : c1 = k <;>
      simp_all [Memory.read]

/-- What a byte reads as after a write (R43, R44, R53). -/
theorem read_write (m : Memory) (a k : Nat) (b : Byte) :
    Memory.read (Memory.write m a b) k = if a = k then b else Memory.read m k := by
  unfold Memory.write
  split
  · subst_vars; exact read_filter m a k
  · exact read_insert m a k b

theorem mem_insert {m : Memory} {a : Nat} {b : Byte} {c : Host.Cell} (h : c ∈ Memory.insert m a b) :
    c = (a, b) ∨ c ∈ m := by
  induction m with
  | nil => simpa [Memory.insert] using h
  | cons d rest ih =>
    obtain ⟨d1, d2⟩ := d
    simp only [Memory.insert] at h
    split at h
    · simpa using h
    · split at h
      · rcases List.mem_cons.1 h with h | h
        · exact .inl h
        · exact .inr (List.mem_cons_of_mem _ h)
      · rcases List.mem_cons.1 h with h | h
        · exact .inr (h ▸ List.mem_cons_self)
        · exact (ih h).imp_right (List.mem_cons_of_mem _)

theorem pairwise_insert {m : Memory} {a : Nat} {b : Byte}
    (h : List.Pairwise (fun c d : Host.Cell => c.1 < d.1) m) :
    List.Pairwise (fun c d : Host.Cell => c.1 < d.1) (Memory.insert m a b) := by
  induction m with
  | nil => simp [Memory.insert]
  | cons d rest ih =>
    obtain ⟨d1, d2⟩ := d
    obtain ⟨hd, hrest⟩ := List.pairwise_cons.1 h
    simp only [Memory.insert]
    split
    · refine List.pairwise_cons.2 ⟨fun c hc => ?_, h⟩
      rcases List.mem_cons.1 hc with rfl | hc
      · assumption
      · have := hd c hc; simp_all; omega
    · split
      · subst_vars; exact List.pairwise_cons.2 ⟨hd, hrest⟩
      · refine List.pairwise_cons.2 ⟨fun c hc => ?_, ih hrest⟩
        rcases mem_insert hc with rfl | hc
        · simp; omega
        · exact hd c hc

/-- Every cell of a written memory is the written one or an old one. -/
theorem mem_write {m : Memory} {a : Nat} {b : Byte} {c : Host.Cell} (h : c ∈ Memory.write m a b) :
    c = (a, b) ∨ c ∈ m := by
  unfold Memory.write at h
  split at h
  · exact .inr (List.mem_filter.1 h).1
  · exact mem_insert h

/-- A write keeps the canonical form. -/
theorem wf_write {m : Memory} (a : Nat) (b : Byte) (h : Memory.wf m) : Memory.wf (Memory.write m a b) := by
  refine ⟨?_, fun c hc => ?_⟩
  · unfold Memory.write
    split
    · exact h.1.filter _
    · exact pairwise_insert h.1
  · rcases mem_write hc with rfl | hm
    · intro hb
      have hb : b = Config.unlistedByte := hb
      unfold Memory.write at hc
      simp [hb] at hc
    · exact h.2 c hm

/-- An address below every listed one reads as unlisted. -/
theorem read_of_lt {m : Memory} {a : Nat} (h : ∀ c ∈ m, a < c.1) : Memory.read m a = Config.unlistedByte := by
  induction m with
  | nil => rfl
  | cons c rest ih =>
    have hc := h c List.mem_cons_self
    have : c.1 ≠ a := by omega
    simp [Memory.read, this, ih fun d hd => h d (List.mem_cons_of_mem _ hd)]

end Sys2Proof.Machine
end

