-- ==== Sys2Proof/Laws/State.lean ====
section
/-! SUPPORT. The small lemmas of State: one per field per update. -/

namespace Sys2Proof.Machine

variable (s : State) (i j : RegIndex) (v w : Word) (o : StepOutcome) (f : Fault)

theorem reg_setReg : (s.setReg i v).reg j = if i = j then v else s.reg j := by
  simp [State.reg, State.setReg, Vector.getElem_set, Fin.ext_iff]

@[simp] theorem reg_setReg_same : (s.setReg i v).reg i = v := by simp [reg_setReg]

theorem reg_setReg_other (h : i ≠ j) : (s.setReg i v).reg j = s.reg j := by simp [reg_setReg, h]

@[simp] theorem setReg_memSize : (s.setReg i v).memSize = s.memSize := rfl
@[simp] theorem setReg_mem : (s.setReg i v).mem = s.mem := rfl
@[simp] theorem setReg_fault : (s.setReg i v).fault = s.fault := rfl
@[simp] theorem setReg_response : (s.setReg i v).response = s.response := rfl

/-- The later of two writes to one register stands. -/
@[simp] theorem setReg_setReg_same : (s.setReg i v).setReg i w = s.setReg i w := by
  simp [State.setReg, Vector.set_set]

@[simp] theorem respond_reg : (s.respond o).reg j = s.reg j := rfl
@[simp] theorem respond_x : (s.respond o).x = s.x := rfl
@[simp] theorem respond_memSize : (s.respond o).memSize = s.memSize := rfl
@[simp] theorem respond_mem : (s.respond o).mem = s.mem := rfl
@[simp] theorem respond_fault : (s.respond o).fault = s.fault := rfl
@[simp] theorem respond_response : (s.respond o).response = some o := rfl

@[simp] theorem latch_reg : (s.latch f).reg j = s.reg j := rfl
@[simp] theorem latch_x : (s.latch f).x = s.x := rfl
@[simp] theorem latch_memSize : (s.latch f).memSize = s.memSize := rfl
@[simp] theorem latch_mem : (s.latch f).mem = s.mem := rfl
@[simp] theorem latch_fault : (s.latch f).fault = some f := rfl
@[simp] theorem latch_response : (s.latch f).response = some (.fault f) := rfl

@[simp] theorem beginStep_memSize : (beginStep s).memSize = s.memSize := rfl
@[simp] theorem beginStep_mem : (beginStep s).mem = s.mem := rfl
@[simp] theorem beginStep_fault : (beginStep s).fault = s.fault := rfl
@[simp] theorem beginStep_response : (beginStep s).response = s.response := rfl

/-- The zeroing of r0 leaves the instruction pointer alone. -/
@[simp] theorem beginStep_ip : (beginStep s).reg ipReg = s.reg ipReg :=
  reg_setReg_other s zeroReg ipReg 0 (by decide)

/-- A register file that agrees at every index is the same register file. -/
theorem x_ext {s t : State} (h : ∀ j, t.reg j = s.reg j) : t.x = s.x := by
  apply Vector.ext
  intro k hk
  exact h ⟨k, hk⟩

end Sys2Proof.Machine
end

