-- ==== Sys2Proof/Laws/Ops.lean ====
section
/-! SUPPORT. What each shared operation of the machine can do, said once. -/

namespace Sys2Proof.Machine

/-! Reading memory. -/

/-- A read of bytes that all exist gives them (R43, R45). -/
theorem memReadBytes_inBounds (s : State) (addr n : Nat) (h : addr + n ≤ s.memSize.toNat) :
    s.memReadBytes addr n = .ok ((List.range n).map fun k => Memory.read s.mem (addr + k)) := by
  induction n generalizing addr with
  | zero => rfl
  | succ n ih =>
    have h1 : addr < s.memSize.toNat := by omega
    simp only [State.memReadBytes, State.memRead1, if_pos h1, ih (addr + 1) (by omega)]
    simp only [List.range_succ_eq_map, List.map_cons, List.map_map, Nat.add_zero]
    congr 2
    apply List.map_congr_left
    intro k _
    simp only [Function.comp]
    congr 1
    omega

/-- A read that passes the end of memory raises at its first missing byte (R43, R45). -/
theorem memReadBytes_outOfBounds (s : State) (addr n : Nat) (hn : 0 < n)
    (h : s.memSize.toNat < addr + n) :
    s.memReadBytes addr n
      = .error (.outOfBoundsAddress (BitVec.ofNat 64 (max addr s.memSize.toNat))) := by
  induction n generalizing addr with
  | zero => omega
  | succ n ih =>
    by_cases h1 : addr < s.memSize.toNat
    · have := ih (addr + 1) (by omega) (by omega)
      simp only [State.memReadBytes, State.memRead1, if_pos h1, this]
      congr 3
      omega
    · simp only [State.memReadBytes, State.memRead1, if_neg h1]
      congr 3
      omega

/-- Everything an 8-byte read can do (R45). -/
theorem memRead8_cases (s : State) (addr : Word) :
    (addr.toNat + 8 ≤ s.memSize.toNat ∧
      s.memRead8 addr
        = .ok (wordOfBytes ((List.range 8).map fun k => Memory.read s.mem (addr.toNat + k)))) ∨
    (s.memSize.toNat < addr.toNat + 8 ∧
      s.memRead8 addr
        = .error (.outOfBoundsAddress (BitVec.ofNat 64 (max addr.toNat s.memSize.toNat)))) := by
  by_cases h : addr.toNat + 8 ≤ s.memSize.toNat
  · exact .inl ⟨h, by simp only [State.memRead8, memReadBytes_inBounds s addr.toNat 8 h]⟩
  · exact .inr ⟨by omega, by
      simp only [State.memRead8, memReadBytes_outOfBounds s addr.toNat 8 (by omega) (by omega)]⟩

/-! Writing memory. -/

/-- A write keeps every field but memory. -/
theorem memWriteBytes_fields (bs : List Byte) (s : State) (addr : Nat) :
    (s.memWriteBytes addr bs).1.x = s.x ∧ (s.memWriteBytes addr bs).1.memSize = s.memSize ∧
      (s.memWriteBytes addr bs).1.fault = s.fault ∧
      (s.memWriteBytes addr bs).1.response = s.response := by
  induction bs generalizing s addr with
  | nil => exact ⟨rfl, rfl, rfl, rfl⟩
  | cons b bs ih =>
    simp only [State.memWriteBytes, State.memWrite1]
    by_cases h : addr < s.memSize.toNat
    · simpa only [if_pos h] using ih { s with mem := Memory.write s.mem addr b } (addr + 1)
    · simp [if_neg h]

/-- A write raises when it passes the end of memory, at its first missing byte (R44, R46). -/
theorem memWriteBytes_fault (bs : List Byte) (s : State) (addr : Nat) :
    (s.memWriteBytes addr bs).2
      = if addr + bs.length ≤ s.memSize.toNat ∨ bs = [] then none
        else some (.outOfBoundsAddress (BitVec.ofNat 64 (max addr s.memSize.toNat))) := by
  induction bs generalizing s addr with
  | nil => simp [State.memWriteBytes]
  | cons b bs ih =>
    simp only [State.memWriteBytes, State.memWrite1]
    by_cases h : addr < s.memSize.toNat
    · simp only [if_pos h, ih, List.length_cons, reduceCtorEq, or_false]
      by_cases hb : bs = []
      · subst hb; simp; omega
      · have : 0 < bs.length := List.length_pos_iff.2 hb
        have e : max (addr + 1) s.memSize.toNat = max addr s.memSize.toNat := by omega
        simp only [hb, or_false, e, Nat.add_assoc, Nat.add_comm 1]
    · have e : max addr s.memSize.toNat = addr := by omega
      have : ¬ addr + (bs.length + 1) ≤ s.memSize.toNat := by omega
      simp [if_neg h, e, this]

/-- What every byte reads as after a write: the in-bounds part of the written range holds the written
bytes, the rest is unchanged (R44, R46). -/
theorem memWriteBytes_read (bs : List Byte) (s : State) (addr a : Nat) :
    Memory.read (s.memWriteBytes addr bs).1.mem a
      = if addr ≤ a ∧ a < addr + bs.length ∧ a < s.memSize.toNat then bs.getD (a - addr) 0
        else Memory.read s.mem a := by
  induction bs generalizing s addr with
  | nil => simp [State.memWriteBytes]; omega
  | cons b bs ih =>
    simp only [State.memWriteBytes, State.memWrite1]
    by_cases h : addr < s.memSize.toNat
    · simp only [if_pos h, ih, read_write, List.length_cons]
      by_cases ha : addr = a
      · subst ha; simp [h]
      · by_cases hr : addr + 1 ≤ a ∧ a < addr + 1 + bs.length ∧ a < s.memSize.toNat
        · have : a - addr = (a - (addr + 1)) + 1 := by omega
          rw [if_pos hr, if_pos (by omega), this, List.getD_cons_succ]
        · rw [if_neg hr, if_neg ha, if_neg (by omega)]
    · rw [if_neg h, if_neg (by omega)]

/-- A write keeps the canonical form, and lists nothing out of bounds. -/
theorem memWriteBytes_wf (bs : List Byte) (s : State) (addr : Nat) (hw : Memory.wf s.mem)
    (hb : ∀ c ∈ s.mem, c.1 < s.memSize.toNat) :
    Memory.wf (s.memWriteBytes addr bs).1.mem ∧
      ∀ c ∈ (s.memWriteBytes addr bs).1.mem, c.1 < s.memSize.toNat := by
  induction bs generalizing s addr with
  | nil => exact ⟨hw, hb⟩
  | cons b bs ih =>
    simp only [State.memWriteBytes, State.memWrite1]
    by_cases h : addr < s.memSize.toNat
    · simp only [if_pos h]
      refine ih { s with mem := Memory.write s.mem addr b } (addr + 1) (wf_write addr b hw) fun c hc => ?_
      rcases mem_write hc with rfl | hm
      · exact h
      · exact hb c hm
    · rw [if_neg h]; exact ⟨hw, hb⟩

/-- Everything an 8-byte write can do to the state it answers (R46). -/
theorem memWrite8_read (s : State) (addr v : Word) (a : Nat) :
    Memory.read (s.memWrite8 addr v).1.mem a
      = if addr.toNat ≤ a ∧ a < addr.toNat + 8 ∧ a < s.memSize.toNat
        then v.extractLsb' (8 * (a - addr.toNat)) 8 else Memory.read s.mem a := by
  rw [State.memWrite8, memWriteBytes_read, length_bytesOfWord]
  split
  · exact getD_bytesOfWord v _ (by omega)
  · rfl

/-- When an 8-byte write raises (R46). -/
theorem memWrite8_fault (s : State) (addr v : Word) :
    (s.memWrite8 addr v).2
      = if addr.toNat + 8 ≤ s.memSize.toNat then none
        else some (.outOfBoundsAddress (BitVec.ofNat 64 (max addr.toNat s.memSize.toNat))) := by
  have : bytesOfWord v ≠ [] := by
    intro h; have := length_bytesOfWord v; simp [h] at this
  rw [State.memWrite8, memWriteBytes_fault, length_bytesOfWord]
  simp [this]

@[simp] theorem memWrite8_x (s : State) (addr v : Word) : (s.memWrite8 addr v).1.x = s.x :=
  (memWriteBytes_fields _ s _).1
@[simp] theorem memWrite8_reg (s : State) (addr v : Word) (j : RegIndex) :
    (s.memWrite8 addr v).1.reg j = s.reg j := by simp [State.reg]
@[simp] theorem memWrite8_memSize (s : State) (addr v : Word) : (s.memWrite8 addr v).1.memSize = s.memSize :=
  (memWriteBytes_fields _ s _).2.1
@[simp] theorem memWrite8_keeps_fault (s : State) (addr v : Word) :
    (s.memWrite8 addr v).1.fault = s.fault := (memWriteBytes_fields _ s _).2.2.1
@[simp] theorem memWrite8_response (s : State) (addr v : Word) :
    (s.memWrite8 addr v).1.response = s.response := (memWriteBytes_fields _ s _).2.2.2

/-- The end of a storing instruction, from the two halves of the store's answer. -/
theorem finishStore_eq (r : State × Option Fault) :
    finishStore r = match r.2 with | none => complete r.1 | some f => raise f r.1 := by
  obtain ⟨s, f⟩ := r
  cases f <;> rfl

/-! Register fields. -/

@[simp] theorem regIndex_fieldOf (i : RegIndex) : regIndex (fieldOf i) = .ok i := by
  revert i; intro i; fin_cases i <;> rfl

/-- A field either names a register or raises (R28). -/
theorem regIndex_cases (n : Nibble) :
    (∃ i : RegIndex, n = fieldOf i ∧ regIndex n = .ok i ∧ fieldValid n = true) ∨
      (regIndex n = .error (.invalidRegisterIndex n) ∧ fieldValid n = false) := by
  by_cases h : n.toNat < 13
  · refine .inl ⟨⟨n.toNat, h⟩, ?_, by simp [regIndex, h], by simp [fieldValid, h]⟩
    simp [fieldOf]
  · exact .inr ⟨by simp [regIndex, h], by simp only [fieldValid, h, decide_false]⟩

variable (s : State) (ia ib io ir : RegIndex)

@[simp] theorem withReg_fieldOf (e : RegIndex → Result) : withReg (fieldOf ia) s e = e ia := by
  simp [withReg]
@[simp] theorem withRegs2_fieldOf (e : RegIndex → RegIndex → Result) :
    withRegs2 (fieldOf ia) (fieldOf ib) s e = e ia ib := by simp [withRegs2]
@[simp] theorem withRegs3_fieldOf (e : RegIndex → RegIndex → RegIndex → Result) :
    withRegs3 (fieldOf ia) (fieldOf ib) (fieldOf io) s e = e ia ib io := by simp [withRegs3]
@[simp] theorem withRegs4_fieldOf (e : RegIndex → RegIndex → RegIndex → RegIndex → Result) :
    withRegs4 (fieldOf ia) (fieldOf ib) (fieldOf io) (fieldOf ir) s e = e ia ib io ir := by
  simp [withRegs4]

/-- Everything one validated field can do (R83). -/
theorem withReg_cases (a : Nibble) (e : RegIndex → Result) :
    (∃ ia, a = fieldOf ia ∧ firstInvalid [a] = none ∧ withReg a s e = e ia) ∨
      (firstInvalid [a] = some a ∧ withReg a s e = raise (.invalidRegisterIndex a) s) := by
  rcases regIndex_cases a with ⟨ia, rfl, h, hv⟩ | ⟨h, hv⟩
  · exact .inl ⟨ia, rfl, by simp [firstInvalid, hv], by simp⟩
  · exact .inr ⟨by simp [firstInvalid, hv], by simp [withReg, h]⟩

/-- Everything two validated fields can do (R83). -/
theorem withRegs2_cases (a b : Nibble) (e : RegIndex → RegIndex → Result) :
    (∃ ia ib, a = fieldOf ia ∧ b = fieldOf ib ∧ firstInvalid [a, b] = none ∧
        withRegs2 a b s e = e ia ib) ∨
      ∃ n, firstInvalid [a, b] = some n ∧ withRegs2 a b s e = raise (.invalidRegisterIndex n) s := by
  rcases regIndex_cases a with ⟨ia, rfl, h, hv⟩ | ⟨h, hv⟩
  · rcases withReg_cases s b (e ia) with ⟨ib, rfl, hf, hb⟩ | ⟨hf, hb⟩
    · exact .inl ⟨ia, ib, rfl, rfl, by simp_all [firstInvalid], by simp⟩
    · exact .inr ⟨b, by simp_all [firstInvalid], by simp [withRegs2, hb]⟩
  · exact .inr ⟨a, by simp [firstInvalid, hv], by simp [withRegs2, withReg, h]⟩

/-- Everything three validated fields can do (R83). -/
theorem withRegs3_cases (a b o : Nibble) (e : RegIndex → RegIndex → RegIndex → Result) :
    (∃ ia ib io, a = fieldOf ia ∧ b = fieldOf ib ∧ o = fieldOf io ∧ firstInvalid [a, b, o] = none ∧
        withRegs3 a b o s e = e ia ib io) ∨
      ∃ n, firstInvalid [a, b, o] = some n ∧
        withRegs3 a b o s e = raise (.invalidRegisterIndex n) s := by
  rcases regIndex_cases a with ⟨ia, rfl, h, hv⟩ | ⟨h, hv⟩
  · rcases withRegs2_cases s b o (e ia) with ⟨ib, io, rfl, rfl, hf, hb⟩ | ⟨n, hf, hb⟩
    · exact .inl ⟨ia, ib, io, rfl, rfl, rfl, by simp_all [firstInvalid], by simp⟩
    · refine .inr ⟨n, by simp_all [firstInvalid], ?_⟩
      simpa [withRegs3, withRegs2] using hb
  · exact .inr ⟨a, by simp [firstInvalid, hv], by simp [withRegs3, withRegs2, withReg, h]⟩

/-- Everything four validated fields can do (R83). -/
theorem withRegs4_cases (a b o r : Nibble) (e : RegIndex → RegIndex → RegIndex → RegIndex → Result) :
    (∃ ia ib io ir, a = fieldOf ia ∧ b = fieldOf ib ∧ o = fieldOf io ∧ r = fieldOf ir ∧
        firstInvalid [a, b, o, r] = none ∧ withRegs4 a b o r s e = e ia ib io ir) ∨
      ∃ n, firstInvalid [a, b, o, r] = some n ∧
        withRegs4 a b o r s e = raise (.invalidRegisterIndex n) s := by
  rcases regIndex_cases a with ⟨ia, rfl, h, hv⟩ | ⟨h, hv⟩
  · rcases withRegs3_cases s b o r (e ia) with ⟨ib, io, ir, rfl, rfl, rfl, hf, hb⟩ | ⟨n, hf, hb⟩
    · exact .inl ⟨ia, ib, io, ir, rfl, rfl, rfl, rfl, by simp_all [firstInvalid], by simp⟩
    · refine .inr ⟨n, by simp_all [firstInvalid], ?_⟩
      simpa [withRegs4, withRegs3, withRegs2] using hb
  · exact .inr ⟨a, by simp [firstInvalid, hv], by simp [withRegs4, withRegs3, withRegs2, withReg, h]⟩

end Sys2Proof.Machine
end

