-- ==== Sys2Proof/Laws/Fetch.lean ====
section
/-! SUPPORT. What fetching can do, said once (R81, R82). -/

namespace Sys2Proof.Machine

/-- x[1] moved on by n bytes. -/
def advance (s : State) (n : Nat) : State := s.setReg ipReg (s.reg ipReg + BitVec.ofNat 64 n)

@[simp] theorem advance_zero (s : State) : advance s 0 = s := by
  simp [advance, State.setReg, State.reg]

theorem advance_advance (s : State) (m n : Nat) : advance (advance s m) n = advance s (m + n) := by
  simp [advance, BitVec.add_assoc, BitVec.ofNat_add]

@[simp] theorem advance_memSize (s : State) (n : Nat) : (advance s n).memSize = s.memSize := rfl
@[simp] theorem advance_mem (s : State) (n : Nat) : (advance s n).mem = s.mem := rfl
@[simp] theorem advance_fault (s : State) (n : Nat) : (advance s n).fault = s.fault := rfl
@[simp] theorem advance_ip (s : State) (n : Nat) :
    (advance s n).reg ipReg = s.reg ipReg + BitVec.ofNat 64 n := by simp [advance]

/-- A fetch below the end of memory reads the byte and moves x[1] on (R81). -/
theorem fetchByte_inBounds (s : State) (h : (s.reg ipReg).toNat < s.memSize.toNat) :
    fetchByte s = .ok (Memory.read s.mem (s.reg ipReg).toNat, advance s 1) := by
  simp only [fetchByte, State.memRead1, if_pos h]
  rfl

/-- A fetch past the end of memory raises (R81). -/
theorem fetchByte_outOfBounds (s : State) (h : s.memSize.toNat ≤ (s.reg ipReg).toNat) :
    fetchByte s = .error (.outOfBoundsAddress (s.reg ipReg)) := by
  have : ¬ (s.reg ipReg).toNat < s.memSize.toNat := by omega
  simp [fetchByte, State.memRead1, if_neg this]

/-- x[1] never wraps while the bytes it passes exist (R34). -/
theorem advance_ip_toNat (s : State) (n : Nat) (h : (s.reg ipReg).toNat + n ≤ s.memSize.toNat) :
    ((advance s n).reg ipReg).toNat = (s.reg ipReg).toNat + n := by
  have := s.memSize.isLt
  rw [advance_ip, BitVec.toNat_add, BitVec.toNat_ofNat, Nat.add_mod_mod, Nat.mod_eq_of_lt]
  omega

/-- Fetching bytes that all exist (R82). -/
theorem fetchBytes_inBounds (n : Nat) (s : State) (h : (s.reg ipReg).toNat + n ≤ s.memSize.toNat) :
    fetchBytes n s
      = .ok ((List.range n).map fun k => Memory.read s.mem ((s.reg ipReg).toNat + k), advance s n) := by
  induction n generalizing s with
  | zero => simp [fetchBytes]
  | succ n ih =>
    have e := advance_ip_toNat s 1 (by omega)
    rw [fetchBytes, fetchByte_inBounds s (by omega)]
    simp only [ih (advance s 1) (by rw [e, advance_memSize]; omega), advance_advance, e, advance_mem]
    simp only [List.range_succ_eq_map, List.map_cons, List.map_map, Nat.add_zero, Nat.add_comm 1 n]
    congr 3
    apply List.map_congr_left
    intro k _
    simp only [Function.comp]
    congr 1
    omega

/-- Fetching past the end of memory raises at the first missing byte, with the bytes before it passed (R82,
R147). -/
theorem fetchBytes_outOfBounds (n k : Nat) (s : State) (hk : k < n)
    (h : k = 0 ∨ (s.reg ipReg).toNat + k ≤ s.memSize.toNat)
    (he : s.memSize.toNat ≤ (s.reg ipReg).toNat + k) :
    fetchBytes n s
      = .error (.outOfBoundsAddress (s.reg ipReg + BitVec.ofNat 64 k), advance s k) := by
  induction n generalizing s k with
  | zero => omega
  | succ n ih =>
    cases k with
    | zero => rw [fetchBytes, fetchByte_outOfBounds s (by omega)]; simp
    | succ k =>
      have h' : (s.reg ipReg).toNat + (k + 1) ≤ s.memSize.toNat := by omega
      have e := advance_ip_toNat s 1 (by omega)
      rw [fetchBytes, fetchByte_inBounds s (by omega)]
      simp only [ih k (advance s 1) (by omega) (by rw [e, advance_memSize]; omega)
        (by rw [e, advance_memSize]; omega), advance_advance, advance_ip, Nat.add_comm 1 k]
      congr 3
      rw [BitVec.add_assoc, ← BitVec.ofNat_add, Nat.add_comm 1 k]

/-- Placing bytes: the ones with a place hold the placed bytes. -/
theorem placeBytes_read (bs : List Byte) (size : Nat) (m : Memory) (addr a : Nat) :
    Memory.read (placeBytes size m addr bs) a
      = if addr ≤ a ∧ a < addr + bs.length ∧ a < size then bs.getD (a - addr) 0
        else Memory.read m a := by
  induction bs generalizing m addr with
  | nil => simp [placeBytes]; omega
  | cons b bs ih =>
    simp only [placeBytes, ih, List.length_cons]
    by_cases ha : addr = a
    · subst ha
      by_cases h : addr < size <;> simp [h, read_write]
    · have e : Memory.read (if addr < size then Memory.write m addr b else m) a = Memory.read m a := by
        split <;> simp [read_write, ha]
      by_cases hr : addr + 1 ≤ a ∧ a < addr + 1 + bs.length ∧ a < size
      · have : a - addr = (a - (addr + 1)) + 1 := by omega
        rw [if_pos hr, if_pos (by omega), this, List.getD_cons_succ]
      · rw [if_neg hr, e, if_neg (by omega)]

end Sys2Proof.Machine
end

