-- ==== Sys2Proof/Laws/Exec.lean ====
section
/-! SUPPORT. What an instruction and a step can do to the parts of State they share, said once. -/

namespace Sys2Proof.Machine

/-- What every effect leaves: memory keeps its size, its canonical form and its bounds, and the answer is
Continue or a stop with the latch as it was, or the fault that is now latched. -/
def Ends (s t : State) : Prop :=
  t.memSize = s.memSize ∧
  (Memory.wf s.mem → (∀ c ∈ s.mem, c.1 < s.memSize.toNat) →
    Memory.wf t.mem ∧ ∀ c ∈ t.mem, c.1 < t.memSize.toNat) ∧
  ((t.fault = s.fault ∧ (t.response = some .continues ∨ ∃ r, t.response = some (.stop r))) ∨
    ∃ f, Latches t f)

theorem ends_complete (s t : State) (hm : t.mem = s.mem) (hz : t.memSize = s.memSize)
    (hf : t.fault = s.fault) : ∃ u, complete t = .next u ∧ Ends s u :=
  ⟨_, rfl, hz, fun hw hb => by simp [hm, hz]; exact ⟨hw, by simpa using hb⟩, .inl ⟨hf, .inl rfl⟩⟩

theorem ends_stop (r : StopReason) (s : State) : ∃ u, stopWith r s = .next u ∧ Ends s u :=
  ⟨_, rfl, rfl, fun hw hb => ⟨hw, hb⟩, .inl ⟨rfl, .inr ⟨r, rfl⟩⟩⟩

theorem ends_raise (f : Fault) (s t : State) (hm : t.mem = s.mem) (hz : t.memSize = s.memSize) :
    ∃ u, raise f t = .next u ∧ Ends s u :=
  ⟨_, rfl, hz, fun hw hb => by simp [hm, hz]; exact ⟨hw, by simpa using hb⟩, .inr ⟨f, rfl, rfl⟩⟩

theorem ends_store (s t : State) (addr v : Word) (hm : t.mem = s.mem) (hz : t.memSize = s.memSize)
    (hf : t.fault = s.fault) : ∃ u, finishStore (t.memWrite8 addr v) = .next u ∧ Ends s u := by
  have hw8 : Memory.wf s.mem → (∀ c ∈ s.mem, c.1 < s.memSize.toNat) →
      Memory.wf (t.memWrite8 addr v).1.mem ∧
        ∀ c ∈ (t.memWrite8 addr v).1.mem, c.1 < (t.memWrite8 addr v).1.memSize.toNat := fun hw hb => by
    rw [memWrite8_memSize]
    exact memWriteBytes_wf _ t addr.toNat (hm ▸ hw) (by rw [hm, hz]; exact hb)
  rw [finishStore_eq]
  cases (t.memWrite8 addr v).2 with
  | none => exact ⟨_, rfl, by simp [hz], hw8, .inl ⟨by simp [hf], .inl rfl⟩⟩
  | some f => exact ⟨_, rfl, by simp [hz], hw8, .inr ⟨f, rfl, rfl⟩⟩

theorem ends_withReg {a : Nibble} {s : State} {e : RegIndex → Result}
    (h : ∀ ia, ∃ u, e ia = .next u ∧ Ends s u) : ∃ u, withReg a s e = .next u ∧ Ends s u := by
  rcases withReg_cases s a e with ⟨ia, _, _, he⟩ | ⟨_, he⟩
  · exact he ▸ h ia
  · exact he ▸ ends_raise _ s s rfl rfl

theorem ends_withRegs2 {a b : Nibble} {s : State} {e : RegIndex → RegIndex → Result}
    (h : ∀ ia ib, ∃ u, e ia ib = .next u ∧ Ends s u) : ∃ u, withRegs2 a b s e = .next u ∧ Ends s u :=
  ends_withReg fun ia => ends_withReg (h ia)

theorem ends_withRegs3 {a b o : Nibble} {s : State} {e : RegIndex → RegIndex → RegIndex → Result}
    (h : ∀ ia ib io, ∃ u, e ia ib io = .next u ∧ Ends s u) :
    ∃ u, withRegs3 a b o s e = .next u ∧ Ends s u :=
  ends_withRegs2 fun ia ib => ends_withReg (h ia ib)

theorem ends_withRegs4 {a b o r : Nibble} {s : State}
    {e : RegIndex → RegIndex → RegIndex → RegIndex → Result}
    (h : ∀ ia ib io ir, ∃ u, e ia ib io ir = .next u ∧ Ends s u) :
    ∃ u, withRegs4 a b o r s e = .next u ∧ Ends s u :=
  ends_withRegs3 fun ia ib io => ends_withReg (h ia ib io)

/-- A read that raises or completes after writing registers. -/
theorem ends_read (s : State) (addr : Word) (g : Word → State)
    (hg : ∀ v, (g v).mem = s.mem ∧ (g v).memSize = s.memSize ∧ (g v).fault = s.fault) :
    ∃ u, (match s.memRead8 addr with
      | .error f => raise f s
      | .ok v => complete (g v)) = .next u ∧ Ends s u := by
  rcases memRead8_cases s addr with ⟨_, h⟩ | ⟨_, h⟩ <;> rw [h]
  · exact ends_complete s _ (hg _).1 (hg _).2.1 (hg _).2.2
  · exact ends_raise _ s s rfl rfl

/-- Every instruction answers a next state, which ends in one of the three ways. -/
theorem exec_ends (i : Instr) (s : State) : ∃ t, exec i s = .next t ∧ Ends s t := by
  cases i with
  | invalid => exact ends_stop _ s
  | add a b o => exact ends_withRegs3 fun _ _ _ => ends_complete s _ rfl rfl rfl
  | sub a b o => exact ends_withRegs3 fun _ _ _ => ends_complete s _ rfl rfl rfl
  | mul a b o => exact ends_withRegs3 fun _ _ _ => ends_complete s _ rfl rfl rfl
  | divmod a b o r => exact ends_withRegs4 fun _ _ _ _ => ends_complete s _ rfl rfl rfl
  | and a b o => exact ends_withRegs3 fun _ _ _ => ends_complete s _ rfl rfl rfl
  | or a b o => exact ends_withRegs3 fun _ _ _ => ends_complete s _ rfl rfl rfl
  | xor a b o => exact ends_withRegs3 fun _ _ _ => ends_complete s _ rfl rfl rfl
  | not a o => exact ends_withRegs2 fun _ _ => ends_complete s _ rfl rfl rfl
  | copy a b => exact ends_withRegs2 fun _ _ => ends_complete s _ rfl rfl rfl
  | load a imm => exact ends_withReg fun _ => ends_complete s _ rfl rfl rfl
  | read a b => exact ends_withRegs2 fun _ _ => ends_read s _ _ fun _ => ⟨rfl, rfl, rfl⟩
  | write a b => exact ends_withRegs2 fun _ _ => ends_store s s _ _ rfl rfl rfl
  | push a => exact ends_withReg fun _ => ends_store s _ _ _ rfl rfl rfl
  | pop a =>
    refine ends_withReg fun ia => ?_
    exact ends_read s (popAddress s)
      (fun v => (s.setReg ia v).setReg spReg ((s.setReg ia v).reg spReg + 8)) fun _ => ⟨rfl, rfl, rfl⟩
  | halt => exact ends_stop _ s
  | call a => exact ends_withReg fun _ => ends_complete s _ rfl rfl rfl
  | stopInvalidInvalid1 => exact ends_stop _ s
  | stopInvalidInvalid2 x => exact ends_stop _ s
  | stopInvalidInvalid4 x => exact ends_stop _ s
  | stopInvalidInvalid8 x => exact ends_stop _ s
  | stopInvalidArithmetic8 x => exact ends_stop _ s
  | stopInvalidMemory6 x => exact ends_stop _ s
  | stopInvalidMemory8 x => exact ends_stop _ s
  | stopInvalidControlFlow2 x => exact ends_stop _ s
  | stopInvalidControlFlow4 x => exact ends_stop _ s
  | stopInvalidControlFlow8 x => exact ends_stop _ s
  | stopInvalidCategory4 ins x => exact ends_stop _ s
  | stopInvalidCategory8 ins x => exact ends_stop _ s

/-- What fetching an instruction can do: it gives the instruction with x[1] past it, or the first missing
byte with x[1] at it (R81, R82). -/
theorem fetchInstr_cases (s : State) :
    (∃ op ops, ops.length = operandCount op ∧
        (s.reg ipReg).toNat + ops.length + 1 ≤ s.memSize.toNat ∧
        (op :: ops = (List.range (operandCount op + 1)).map fun k =>
          Memory.read s.mem ((s.reg ipReg).toNat + k)) ∧
        fetchInstr s = .ok (instrOf op ops, advance s (operandCount op + 1))) ∨
    ∃ k, (k = 0 ∨ (s.reg ipReg).toNat + k ≤ s.memSize.toNat) ∧
      s.memSize.toNat ≤ (s.reg ipReg).toNat + k ∧
      (k = 0 ∨ k ≤ operandCount (Memory.read s.mem (s.reg ipReg).toNat)) ∧
      fetchInstr s
        = .error (.outOfBoundsAddress (s.reg ipReg + BitVec.ofNat 64 k), advance s k) := by
  by_cases h0 : (s.reg ipReg).toNat < s.memSize.toNat
  · have e := advance_ip_toNat s 1 (by omega)
    simp only [fetchInstr, fetchByte_inBounds s h0]
    generalize hop : Memory.read s.mem (s.reg ipReg).toNat = op
    by_cases h1 : (s.reg ipReg).toNat + operandCount op + 1 ≤ s.memSize.toNat
    · refine .inl ⟨op, (List.range (operandCount op)).map fun k =>
        Memory.read s.mem ((s.reg ipReg).toNat + 1 + k), by simp, by simpa using h1, ?_, ?_⟩
      · simp only [List.range_succ_eq_map, List.map_cons, List.map_map, Nat.add_zero, hop]
        congr 1
        apply List.map_congr_left
        intro k _
        simp only [Function.comp]
        congr 1
        omega
      · rw [fetchBytes_inBounds _ (advance s 1) (by rw [e, advance_memSize]; omega)]
        simp only [e, advance_mem, advance_advance, Nat.add_comm 1]
    · refine .inr ⟨s.memSize.toNat - (s.reg ipReg).toNat, .inr (by omega), by omega, .inr (by omega), ?_⟩
      rw [fetchBytes_outOfBounds _ (s.memSize.toNat - (s.reg ipReg).toNat - 1) (advance s 1) (by omega)
        (.inr (by rw [e, advance_memSize]; omega)) (by rw [e, advance_memSize]; omega)]
      simp only [advance_advance, advance_ip, BitVec.add_assoc, ← BitVec.ofNat_add]
      have : 1 + (s.memSize.toNat - (s.reg ipReg).toNat - 1)
          = s.memSize.toNat - (s.reg ipReg).toNat := by omega
      rw [this]
  · refine .inr ⟨0, .inl rfl, by omega, .inl rfl, ?_⟩
    simp [fetchInstr, fetchByte_outOfBounds s (by omega)]

/-- The state an effect runs in, as x[1] moved on from the zeroed r0. -/
theorem afterFetch_eq (s : State) (n : Nat) : afterFetch s n = advance (beginStep s) n := by
  simp [afterFetch, advance, beginStep, reg_setReg, zeroReg, ipReg]

/-- What each register holds when an effect runs (R31, R80, R82). -/
theorem reg_afterFetch (s : State) (n : Nat) (j : RegIndex) :
    (afterFetch s n).reg j
      = if j = ipReg then s.reg ipReg + BitVec.ofNat 64 n else if j = zeroReg then 0 else s.reg j := by
  simp only [afterFetch, reg_setReg, eq_comm]

@[simp] theorem afterFetch_memSize (s : State) (n : Nat) : (afterFetch s n).memSize = s.memSize := rfl
@[simp] theorem afterFetch_mem (s : State) (n : Nat) : (afterFetch s n).mem = s.mem := rfl
@[simp] theorem afterFetch_fault (s : State) (n : Nat) : (afterFetch s n).fault = s.fault := rfl

/-- A byte that memory holds in bounds is what a fetch of its address reads (R56, R81). -/
theorem fetchReads_of_read {s : State} {addr : Nat} {b : Byte} (h : addr < s.memSize.toNat)
    (hb : Memory.read s.mem addr = b) : FetchReads s addr b := by
  intro u hm hz hip
  have := fetchByte_inBounds u (by rw [hip, hz]; exact h)
  rw [hip, hm, hb] at this
  exact ⟨_, this⟩

/-- Code that stands at x[1] is what memory reads as there. -/
theorem codeAt_eq_map {s : State} {bytes : List Byte} (h : CodeAt s bytes) :
    bytes = (List.range bytes.length).map fun k => Memory.read s.mem ((s.reg ipReg).toNat + k) := by
  apply List.ext_getElem (by simp)
  intro k hk _
  have := (h k hk).2
  simp [List.getD, hk] at this
  simp [this]

/-- Everything a step can do, with the latch clear: run the fetched instruction, or raise where memory ends. -/
theorem step_unlatched (s : State) (h : s.fault = none) :
    step s = match fetchInstr (beginStep s) with
      | .error (f, s') => raise f s'
      | .ok (i, s') => exec i s' := by
  rcases hf : fetchInstr (beginStep s) with ⟨f, t⟩ | ⟨i, t⟩ <;> simp [step, h, hf]

/-- A step with the latch set (R146). -/
theorem step_latched (s : State) (f : Fault) (h : s.fault = some f) : step s = .fault f := by
  simp [step, h]

/-- Every step with the latch clear answers a next state, which ends in one of the three ways. -/
theorem step_ends (s : State) (h : s.fault = none) : ∃ t, step s = .next t ∧ Ends s t := by
  rw [step_unlatched s h]
  rcases fetchInstr_cases (beginStep s) with ⟨op, ops, _, _, _, he⟩ | ⟨k, _, _, _, he⟩ <;> rw [he]
  · exact exec_ends (instrOf op ops) _
  · exact ends_raise _ s _ rfl rfl

end Sys2Proof.Machine
end

