-- ==== Sys2Proof/Laws/PerInstr.lean ====
section
/-! SUPPORT. Facts made once per instruction. EncodeLength: an encoding has the length its opcode byte alone
gives (R65), 1, 2, 3 or 10 bytes (R60). -/

namespace Sys2Proof.Laws

/-- The encoding is an opcode byte and as many operand bytes as that opcode calls for. -/
def EncodeLength.Statement (i : Instr) : Prop :=
  ∃ op ops, encode i = op :: ops ∧ ops.length = operandCount op ∧ (encode i).length ∈ [1, 2, 3, 10]

theorem EncodeLength.invalid : EncodeLength.Statement .invalid :=
  ⟨_, _, rfl, rfl, by simp [encode]⟩

theorem EncodeLength.add (a : Nibble) (b : Nibble) (o : Nibble) : EncodeLength.Statement (.add a b o) :=
  ⟨_, _, rfl, rfl, by simp [encode]⟩

theorem EncodeLength.sub (a : Nibble) (b : Nibble) (o : Nibble) : EncodeLength.Statement (.sub a b o) :=
  ⟨_, _, rfl, rfl, by simp [encode]⟩

theorem EncodeLength.mul (a : Nibble) (b : Nibble) (o : Nibble) : EncodeLength.Statement (.mul a b o) :=
  ⟨_, _, rfl, rfl, by simp [encode]⟩

theorem EncodeLength.divmod (a : Nibble) (b : Nibble) (o : Nibble) (r : Nibble) : EncodeLength.Statement (.divmod a b o r) :=
  ⟨_, _, rfl, rfl, by simp [encode]⟩

theorem EncodeLength.and (a : Nibble) (b : Nibble) (o : Nibble) : EncodeLength.Statement (.and a b o) :=
  ⟨_, _, rfl, rfl, by simp [encode]⟩

theorem EncodeLength.or (a : Nibble) (b : Nibble) (o : Nibble) : EncodeLength.Statement (.or a b o) :=
  ⟨_, _, rfl, rfl, by simp [encode]⟩

theorem EncodeLength.xor (a : Nibble) (b : Nibble) (o : Nibble) : EncodeLength.Statement (.xor a b o) :=
  ⟨_, _, rfl, rfl, by simp [encode]⟩

theorem EncodeLength.not (a : Nibble) (o : Nibble) : EncodeLength.Statement (.not a o) :=
  ⟨_, _, rfl, rfl, by simp [encode]⟩

theorem EncodeLength.copy (a : Nibble) (b : Nibble) : EncodeLength.Statement (.copy a b) :=
  ⟨_, _, rfl, rfl, by simp [encode]⟩

theorem EncodeLength.load (a : Nibble) (imm : Word) : EncodeLength.Statement (.load a imm) := by
  refine ⟨_, _, rfl, ?_, by simp [encode]⟩
  simp [operandCount, formatOf, lowNibble, highNibble, Format.operands]

theorem EncodeLength.read (a : Nibble) (b : Nibble) : EncodeLength.Statement (.read a b) :=
  ⟨_, _, rfl, rfl, by simp [encode]⟩

theorem EncodeLength.write (a : Nibble) (b : Nibble) : EncodeLength.Statement (.write a b) :=
  ⟨_, _, rfl, rfl, by simp [encode]⟩

theorem EncodeLength.push (a : Nibble) : EncodeLength.Statement (.push a) :=
  ⟨_, _, rfl, rfl, by simp [encode]⟩

theorem EncodeLength.pop (a : Nibble) : EncodeLength.Statement (.pop a) :=
  ⟨_, _, rfl, rfl, by simp [encode]⟩

theorem EncodeLength.halt : EncodeLength.Statement .halt :=
  ⟨_, _, rfl, rfl, by simp [encode]⟩

theorem EncodeLength.call (a : Nibble) : EncodeLength.Statement (.call a) :=
  ⟨_, _, rfl, rfl, by simp [encode]⟩

theorem EncodeLength.stopInvalidInvalid1 : EncodeLength.Statement .stopInvalidInvalid1 :=
  ⟨_, _, rfl, rfl, by simp [encode]⟩

theorem EncodeLength.stopInvalidInvalid2 (x : BitVec 1) : EncodeLength.Statement (.stopInvalidInvalid2 x) := by
  refine ⟨_, _, rfl, ?_, by simp [encode]⟩
  revert x; decide

theorem EncodeLength.stopInvalidInvalid4 (x : BitVec 2) : EncodeLength.Statement (.stopInvalidInvalid4 x) := by
  refine ⟨_, _, rfl, ?_, by simp [encode]⟩
  revert x; decide

theorem EncodeLength.stopInvalidInvalid8 (x : BitVec 3) : EncodeLength.Statement (.stopInvalidInvalid8 x) := by
  refine ⟨_, _, rfl, ?_, by simp [encode]⟩
  revert x; decide

theorem EncodeLength.stopInvalidArithmetic8 (x : BitVec 3) : EncodeLength.Statement (.stopInvalidArithmetic8 x) := by
  refine ⟨_, _, rfl, ?_, by simp [encode]⟩
  revert x; decide

theorem EncodeLength.stopInvalidMemory6 (x : BitVec 1) : EncodeLength.Statement (.stopInvalidMemory6 x) := by
  refine ⟨_, _, rfl, ?_, by simp [encode]⟩
  revert x; decide

theorem EncodeLength.stopInvalidMemory8 (x : BitVec 3) : EncodeLength.Statement (.stopInvalidMemory8 x) := by
  refine ⟨_, _, rfl, ?_, by simp [encode]⟩
  revert x; decide

theorem EncodeLength.stopInvalidControlFlow2 (x : BitVec 1) : EncodeLength.Statement (.stopInvalidControlFlow2 x) := by
  refine ⟨_, _, rfl, ?_, by simp [encode]⟩
  revert x; decide

theorem EncodeLength.stopInvalidControlFlow4 (x : BitVec 2) : EncodeLength.Statement (.stopInvalidControlFlow4 x) := by
  refine ⟨_, _, rfl, ?_, by simp [encode]⟩
  revert x; decide

theorem EncodeLength.stopInvalidControlFlow8 (x : BitVec 3) : EncodeLength.Statement (.stopInvalidControlFlow8 x) := by
  refine ⟨_, _, rfl, ?_, by simp [encode]⟩
  revert x; decide

theorem EncodeLength.stopInvalidCategory4 (ins : Nibble) (x : BitVec 2) : EncodeLength.Statement (.stopInvalidCategory4 ins x) := by
  refine ⟨_, _, rfl, ?_, by simp [encode]⟩
  revert ins x; decide

theorem EncodeLength.stopInvalidCategory8 (ins : Nibble) (x : BitVec 3) : EncodeLength.Statement (.stopInvalidCategory8 ins x) := by
  refine ⟨_, _, rfl, ?_, by simp [encode]⟩
  revert ins x; decide

end Sys2Proof.Laws
end

