-- ==== Sys2Proof/Tests/Slice0.lean ====
section
/-! SUPPORT. Tests. Every expected value comes from spec/: the encodings are written out from
30_encoding.md R63 to R68, the steps are rows of 95_test_vectors.md (named in each docstring). The last part
shows, for every statement with hypotheses, a concrete state and operands that meet them. -/

open Sys2Proof Sys2Proof.Machine

namespace Sys2Proof.Tests

/-! ## Helpers -/

/-- The state after RESET(size, start), host register presets, code at `start` and bytes placed in memory. -/
def boot (size start : Word) (regs : List (RegIndex × Word)) (code : List Byte)
    (data : List (Nat × List Byte)) : State :=
  regs.foldl (fun s r => s.setReg r.1 r.2)
    { State.resetWith size start with
      mem := data.foldl (fun m d => placeBytes size.toNat m d.1 d.2)
        (placeBytes size.toNat [] start.toNat code) }

/-- The common convention of 95_test_vectors.md: MEM_SIZE = 0x100, START_ADDRESS = 0x40. -/
def at40 (regs : List (RegIndex × Word)) (code : List Byte) (data : List (Nat × List Byte)) : State :=
  boot 0x100 0x40 regs code data

/-- One step answers this outcome, and leaves these registers and these bytes. -/
def stepGives (s : State) (o : StepOutcome) (regs : List (RegIndex × Word))
    (bytes : List (Nat × List Byte)) : Bool :=
  match step s with
  | .next t =>
    decide (t.response = some o) && regs.all (fun r => decide (t.reg r.1 = r.2)) &&
      bytes.all fun d => decide ((List.range d.2.length).map (fun k => Memory.read t.mem (d.1 + k)) = d.2)
  | .fault _ => false
  | .refused _ => false

/-- The state one step gives (the same state where it gives none). -/
def next (s : State) : State :=
  match step s with
  | .next t => t
  | .fault _ => s
  | .refused _ => s

/-- V of 95_test_vectors.md and its bytes. -/
def v : Word := 0x1122334455667788
/-- The bytes of V in memory order. -/
def vBytes : List Byte := [0x88, 0x77, 0x66, 0x55, 0x44, 0x33, 0x22, 0x11]
/-- M of 95_test_vectors.md. -/
def m : Word := 0xFFFFFFFFFFFFFFFF

/-- One answer of a host read. -/
def answers {α : Type} [DecidableEq α] (r : Except Refusal α) (expected : α) : Bool :=
  match r with
  | .ok a => decide (a = expected)
  | .error _ => false

/-! ## WellFormed refuses each used field of 13..15 (R28), and takes 12 -/

theorem test_illFormed_add :
    wellFormed (.add 13 0 0) = false ∧
    wellFormed (.add 0 14 0) = false ∧
    wellFormed (.add 0 0 15) = false ∧
    wellFormed (.add 12 12 12) = true := by decide

theorem test_illFormed_sub :
    wellFormed (.sub 13 0 0) = false ∧
    wellFormed (.sub 0 14 0) = false ∧
    wellFormed (.sub 0 0 15) = false ∧
    wellFormed (.sub 12 12 12) = true := by decide

theorem test_illFormed_mul :
    wellFormed (.mul 13 0 0) = false ∧
    wellFormed (.mul 0 14 0) = false ∧
    wellFormed (.mul 0 0 15) = false ∧
    wellFormed (.mul 12 12 12) = true := by decide

theorem test_illFormed_divmod :
    wellFormed (.divmod 13 0 0 0) = false ∧
    wellFormed (.divmod 0 14 0 0) = false ∧
    wellFormed (.divmod 0 0 15 0) = false ∧
    wellFormed (.divmod 0 0 0 13) = false ∧
    wellFormed (.divmod 12 12 12 12) = true := by decide

theorem test_illFormed_and :
    wellFormed (.and 13 0 0) = false ∧
    wellFormed (.and 0 14 0) = false ∧
    wellFormed (.and 0 0 15) = false ∧
    wellFormed (.and 12 12 12) = true := by decide

theorem test_illFormed_or :
    wellFormed (.or 13 0 0) = false ∧
    wellFormed (.or 0 14 0) = false ∧
    wellFormed (.or 0 0 15) = false ∧
    wellFormed (.or 12 12 12) = true := by decide

theorem test_illFormed_xor :
    wellFormed (.xor 13 0 0) = false ∧
    wellFormed (.xor 0 14 0) = false ∧
    wellFormed (.xor 0 0 15) = false ∧
    wellFormed (.xor 12 12 12) = true := by decide

theorem test_illFormed_not :
    wellFormed (.not 13 0) = false ∧
    wellFormed (.not 0 14) = false ∧
    wellFormed (.not 12 12) = true := by decide

theorem test_illFormed_copy :
    wellFormed (.copy 13 0) = false ∧
    wellFormed (.copy 0 14) = false ∧
    wellFormed (.copy 12 12) = true := by decide

theorem test_illFormed_read :
    wellFormed (.read 13 0) = false ∧
    wellFormed (.read 0 14) = false ∧
    wellFormed (.read 12 12) = true := by decide

theorem test_illFormed_write :
    wellFormed (.write 13 0) = false ∧
    wellFormed (.write 0 14) = false ∧
    wellFormed (.write 12 12) = true := by decide

theorem test_illFormed_push :
    wellFormed (.push 13) = false ∧
    wellFormed (.push 12) = true := by decide

theorem test_illFormed_pop :
    wellFormed (.pop 13) = false ∧
    wellFormed (.pop 12) = true := by decide

theorem test_illFormed_call :
    wellFormed (.call 13) = false ∧
    wellFormed (.call 12) = true := by decide

theorem test_illFormed_load : wellFormed (.load 13 0) = false ∧ wellFormed (.load 12 0) = true := by decide

/-! ## Decoding: each constructor's word, written out from the formats of R63 and the opcodes of R66 to R68 -/

theorem test_decode_invalid :
    decode [0x00] = .ok (.invalid, []) := by rfl

theorem test_decode_add :
    decode [0x01, 0x54, 0x06] = .ok (.add 4 5 6, []) := by rfl

theorem test_decode_sub :
    decode [0x11, 0x21, 0x03] = .ok (.sub 1 2 3, []) := by rfl

theorem test_decode_mul :
    decode [0x21, 0x87, 0x09] = .ok (.mul 7 8 9, []) := by rfl

theorem test_decode_divmod :
    decode [0x31, 0x54, 0xA9] = .ok (.divmod 4 5 9 10, []) := by rfl

theorem test_decode_and :
    decode [0x41, 0x54, 0x0C] = .ok (.and 4 5 12, []) := by rfl

theorem test_decode_or :
    decode [0x51, 0x04, 0x07] = .ok (.or 4 0 7, []) := by rfl

theorem test_decode_xor :
    decode [0x61, 0xCB, 0x0A] = .ok (.xor 11 12 10, []) := by rfl

theorem test_decode_not :
    decode [0x71, 0xB4] = .ok (.not 4 11, []) := by rfl

theorem test_decode_copy :
    decode [0x02, 0x74] = .ok (.copy 4 7, []) := by rfl

theorem test_decode_load :
    decode [0x12, 0x04, 0x88, 0x77, 0x66, 0x55, 0x44, 0x33, 0x22, 0x11] = .ok (.load 4 0x1122334455667788, []) := by rfl

theorem test_decode_read :
    decode [0x22, 0x65] = .ok (.read 5 6, []) := by rfl

theorem test_decode_write :
    decode [0x32, 0x54] = .ok (.write 4 5, []) := by rfl

theorem test_decode_push :
    decode [0x42, 0x04] = .ok (.push 4, []) := by rfl

theorem test_decode_pop :
    decode [0x52, 0x07] = .ok (.pop 7, []) := by rfl

theorem test_decode_halt :
    decode [0x03] = .ok (.halt, []) := by rfl

theorem test_decode_call :
    decode [0x13, 0x08] = .ok (.call 8, []) := by rfl

theorem test_decode_stopInvalidInvalid1 :
    decode [0x10] = .ok (.stopInvalidInvalid1, []) := by rfl

theorem test_decode_stopInvalidInvalid2 :
    decode [0x30] = .ok (.stopInvalidInvalid2 1, []) := by rfl

theorem test_decode_stopInvalidInvalid4 :
    decode [0x60] = .ok (.stopInvalidInvalid4 2, []) := by rfl

theorem test_decode_stopInvalidInvalid8 :
    decode [0xB0] = .ok (.stopInvalidInvalid8 3, []) := by rfl

theorem test_decode_stopInvalidArithmetic8 :
    decode [0x91] = .ok (.stopInvalidArithmetic8 1, []) := by rfl

theorem test_decode_stopInvalidMemory6 :
    decode [0x72] = .ok (.stopInvalidMemory6 1, []) := by rfl

theorem test_decode_stopInvalidMemory8 :
    decode [0xE2] = .ok (.stopInvalidMemory8 6, []) := by rfl

theorem test_decode_stopInvalidControlFlow2 :
    decode [0x23] = .ok (.stopInvalidControlFlow2 0, []) := by rfl

theorem test_decode_stopInvalidControlFlow4 :
    decode [0x73] = .ok (.stopInvalidControlFlow4 3, []) := by rfl

theorem test_decode_stopInvalidControlFlow8 :
    decode [0x93] = .ok (.stopInvalidControlFlow8 1, []) := by rfl

theorem test_decode_stopInvalidCategory4 :
    decode [0xA7] = .ok (.stopInvalidCategory4 10 3, []) := by rfl

theorem test_decode_stopInvalidCategory8 :
    decode [0x2D] = .ok (.stopInvalidCategory8 2 5, []) := by rfl

/-- R64, R71: the unused nibbles of 12 F4, 42 F4 and 01 54 F6 (V-MEM-10, V-MEM-31, V-AR-7). -/
theorem test_decode_noncanonical :
    decode (0x12 :: 0xF4 :: vBytes) = .ok (.load 4 v, []) ∧ decode [0x42, 0xF4] = .ok (.push 4, []) ∧
    decode [0x01, 0x54, 0xF6] = .ok (.add 4 5 6, []) := ⟨rfl, rfl, rfl⟩

/-- R65: a list that ends before its instruction does is refused, by name. -/
theorem test_decode_truncated :
    decode [] = .error .empty ∧ decode [0x01, 0x54] = .error (.truncated 0x01 2 1) := ⟨rfl, rfl⟩

/-- The bytes 01 54 06 as a table word: bit 0 is the least significant bit of the first byte. -/
theorem test_decodeTableWord :
    decodeTableWord 24 0x065401 = some (.add 4 5 6) ∧ decodeTableWord 16 0x0412 = some (.load 4 0) ∧
    decodeTableWord 8 0xA7 = some (.stopInvalidCategory4 10 3) := by decide

/-- The first step after reset runs the placed word: LOAD of 10 into r4 (V-MEM-7), then HALT. -/
theorem test_withFetchWord :
    stepGives (State.reset.withFetchWord 80 0x0A0412) .continues [(4, 10), (1, 10)] [] = true ∧
    stepGives (State.reset.withFetchWord 8 0x03) (.stop .halt) [(1, 1)] [] = true := by decide

/-- R69: with nothing placed, the first step after reset fetches the zero byte INVALID. -/
theorem test_reset_step :
    stepGives State.reset (.stop .invalidInstruction) [(1, 1)] [] = true := by decide

/-! ## One step of each instruction (95_test_vectors.md) -/

/-- V-INV-1. -/
theorem test_invalid :
    stepGives (at40 [] [0x00] [])
      (.stop .invalidInstruction) [(1, 0x41)] [] = true := by decide

/-- V-AR-2. -/
theorem test_add_wraps :
    stepGives (at40 [(4, m), (5, 1), (6, 0x5A)] [0x01, 0x54, 0x06] [])
      (.continues) [(1, 0x43), (6, 0)] [] = true := by decide

/-- V-AR-6. -/
theorem test_add_jumps :
    stepGives (at40 [(4, 0x10), (5, 0x20)] [0x01, 0x54, 0x01] [])
      (.continues) [(1, 0x30)] [] = true := by decide

/-- V-AR-8. -/
theorem test_sub :
    stepGives (at40 [(4, 3), (5, 5)] [0x11, 0x54, 0x07] [])
      (.continues) [(1, 0x43), (7, 0xFFFFFFFFFFFFFFFE)] [] = true := by decide

/-- V-AR-14. -/
theorem test_mul :
    stepGives (at40 [(4, m), (5, m)] [0x21, 0x54, 0x08] [])
      (.continues) [(1, 0x43), (8, 1)] [] = true := by decide

/-- V-AR-13. -/
theorem test_mul_high :
    stepGives (at40 [(4, 0x100000000), (5, 0x100000000), (8, 0x5A)] [0x21, 0x54, 0x08] [])
      (.continues) [(8, 0)] [] = true := by decide

/-- V-DM-3. -/
theorem test_divmod_zero :
    stepGives (at40 [(4, m), (9, 0x5A), (10, 0x5A)] [0x31, 0x54, 0xA9] [])
      (.continues) [(9, 0), (10, 0)] [] = true := by decide

/-- V-DM-14. -/
theorem test_divmod_alias :
    stepGives (at40 [(4, 17), (5, 5)] [0x31, 0x54, 0x45] [])
      (.continues) [(1, 0x43), (5, 3), (4, 2)] [] = true := by decide

/-- V-AR-16. -/
theorem test_and :
    stepGives (at40 [(4, 10), (5, 7)] [0x41, 0x54, 0x0C] [])
      (.continues) [(1, 0x43), (12, 2)] [] = true := by decide

/-- V-AR-17. -/
theorem test_or :
    stepGives (at40 [(4, 10), (5, 7)] [0x51, 0x54, 0x0C] [])
      (.continues) [(1, 0x43), (12, 0xF)] [] = true := by decide

/-- V-AR-18. -/
theorem test_xor :
    stepGives (at40 [(4, 10), (5, 7)] [0x61, 0x54, 0x0C] [])
      (.continues) [(1, 0x43), (12, 0xD)] [] = true := by decide

/-- V-AR-22. -/
theorem test_not :
    stepGives (at40 [(4, 10)] [0x71, 0xB4] [])
      (.continues) [(1, 0x42), (11, 0xFFFFFFFFFFFFFFF5)] [] = true := by decide

/-- V-MEM-1. -/
theorem test_copy :
    stepGives (at40 [(4, 0x1234)] [0x02, 0x74] [])
      (.continues) [(1, 0x42), (7, 0x1234)] [] = true := by decide

/-- V-MEM-2. -/
theorem test_copy_ip :
    stepGives (at40 [] [0x02, 0x61] [])
      (.continues) [(1, 0x42), (6, 0x42)] [] = true := by decide

/-- V-MEM-8. -/
theorem test_load :
    stepGives (at40 [] (0x12 :: 0x04 :: vBytes) [])
      (.continues) [(1, 0x4A), (4, v)] [] = true := by decide

/-- V-MEM-11. -/
theorem test_load_badField :
    stepGives (at40 [] [0x12, 0x0D, 0x0A] [])
      (.fault (.invalidRegisterIndex 13)) [(1, 0x4A)] [] = true := by decide

/-- V-MEM-14. -/
theorem test_read_unaligned :
    stepGives (at40 [(5, 0x81)] [0x22, 0x65] [(0x80, vBytes ++ [0xAA])])
      (.continues) [(1, 0x42), (6, 0xAA11223344556677)] [] = true := by decide

/-- V-MEM-17. -/
theorem test_read_pastEnd :
    stepGives (at40 [(5, 0xF9), (6, 0x5A)] [0x22, 0x65] [])
      (.fault (.outOfBoundsAddress 0x100)) [(1, 0x42), (6, 0x5A)] [] = true := by decide

/-- V-MEM-21. -/
theorem test_write :
    stepGives (at40 [(4, v), (5, 0x83)] [0x32, 0x54] [])
      (.continues) [(1, 0x42)] [(0x82, [0]), (0x83, vBytes), (0x8B, [0])] = true := by decide

/-- V-MEM-23. -/
theorem test_write_straddles :
    stepGives (at40 [(4, v), (5, 0xFC)] [0x32, 0x54] [])
      (.fault (.outOfBoundsAddress 0x100)) [(1, 0x42)] [(0xFB, [0]), (0xFC, [0x88, 0x77, 0x66, 0x55])] = true := by decide

/-- V-MEM-27. -/
theorem test_push_sp :
    stepGives (at40 [(3, 0x100)] [0x42, 0x03] [])
      (.continues) [(1, 0x42), (3, 0xF8)] [(0xF8, [0xF8, 0, 0, 0, 0, 0, 0, 0])] = true := by decide

/-- V-MEM-29. -/
theorem test_push_wraps :
    stepGives (at40 [(4, v)] [0x42, 0x04] [])
      (.fault (.outOfBoundsAddress 0xFFFFFFFFFFFFFFF8)) [(1, 0x42), (3, 0xFFFFFFFFFFFFFFF8)] [] = true := by decide

/-- V-MEM-32. -/
theorem test_pop :
    stepGives (at40 [(3, 0xF8)] [0x52, 0x07] [(0xF8, vBytes)])
      (.continues) [(1, 0x42), (3, 0x100), (7, v)] [] = true := by decide

/-- V-MEM-33. -/
theorem test_pop_sp :
    stepGives (at40 [(3, 0xF8)] [0x52, 0x03] [(0xF8, [0x00, 0x02])])
      (.continues) [(1, 0x42), (3, 0x208)] [] = true := by decide

/-- V-CF-1. -/
theorem test_halt :
    stepGives (at40 [] [0x03] [])
      (.stop .halt) [(1, 0x41)] [] = true := by decide

/-- V-CF-2. -/
theorem test_call :
    stepGives (at40 [(8, 0x80)] [0x13, 0x08] [])
      (.continues) [(1, 0x80), (2, 0x42)] [] = true := by decide

/-- V-CF-3. -/
theorem test_call_ra :
    stepGives (at40 [(2, 0x99)] [0x13, 0x02] [])
      (.continues) [(1, 0x42), (2, 0x42)] [] = true := by decide

/-- V-INV-2. -/
theorem test_stopInvalidInvalid1 :
    stepGives (at40 [] [0x10] [])
      (.stop .invalidInvalidInstruction) [(1, 0x41)] [] = true := by decide

/-- R87. -/
theorem test_stopInvalidInvalid2 :
    stepGives (at40 [] [0x20] [])
      (.stop .invalidInvalidInstruction) [(1, 0x41)] [] = true := by decide

/-- R87, example 0x70. -/
theorem test_stopInvalidInvalid4 :
    stepGives (boot 0x100 0 [] [0x70] [])
      (.stop .invalidInvalidInstruction) [(1, 1)] [] = true := by decide

/-- V-INV-3. -/
theorem test_stopInvalidInvalid8 :
    stepGives (at40 [] [0xF0] [])
      (.stop .invalidInvalidInstruction) [(1, 0x41)] [] = true := by decide

/-- V-INV-16. -/
theorem test_stopInvalidArithmetic8 :
    stepGives (at40 [] [0x81, 0x01, 0x54, 0x06] [])
      (.stop .invalidArithmeticInstruction) [(1, 0x41)] [] = true := by decide

/-- V-INV-9. -/
theorem test_stopInvalidMemory6 :
    stepGives (at40 [] [0x62] [])
      (.stop .invalidMemoryInstruction) [(1, 0x41)] [] = true := by decide

/-- V-INV-10. -/
theorem test_stopInvalidMemory8 :
    stepGives (at40 [] [0xF2] [])
      (.stop .invalidMemoryInstruction) [(1, 0x41)] [] = true := by decide

/-- V-INV-11. -/
theorem test_stopInvalidControlFlow2 :
    stepGives (at40 [] [0x23] [])
      (.stop .invalidControlFlowInstruction) [(1, 0x41)] [] = true := by decide

/-- R132. -/
theorem test_stopInvalidControlFlow4 :
    stepGives (at40 [] [0x43] [])
      (.stop .invalidControlFlowInstruction) [(1, 0x41)] [] = true := by decide

/-- V-INV-12. -/
theorem test_stopInvalidControlFlow8 :
    stepGives (at40 [] [0xF3] [])
      (.stop .invalidControlFlowInstruction) [(1, 0x41)] [] = true := by decide

/-- V-INV-6. -/
theorem test_stopInvalidCategory4 :
    stepGives (boot 0x100 5 [] [0xA7] [])
      (.stop .invalidInstructionCategory) [(1, 6)] [] = true := by decide

/-- V-INV-5. -/
theorem test_stopInvalidCategory8 :
    stepGives (at40 [] [0xFF] [])
      (.stop .invalidInstructionCategory) [(1, 0x41)] [] = true := by decide

/-- V-AR-29. -/
theorem test_fetch_cut :
    stepGives (boot 0x42 0x40 [(4, 10), (5, 7)] [0x01, 0x54] [])
      (.fault (.outOfBoundsAddress 0x42)) [(1, 0x42)] [] = true := by decide

/-- V-INV-14. -/
theorem test_zeroRegister :
    stepGives (at40 [(0, 5)] [0x02, 0x00] [])
      (.continues) [(1, 0x42), (0, 0)] [] = true := by decide

/-- V-F-3. -/
theorem test_priority :
    stepGives (at40 [(5, 0x1000)] [0x22, 0xD5] [])
      (.fault (.invalidRegisterIndex 13)) [(1, 0x42)] [] = true := by decide

/-- V-F-1: a latched fault answers again, and the state stays as it is. -/
theorem test_latched : step (next (at40 [] [0x01, 0x5D, 0x06, 0x03] [])) = .fault (.invalidRegisterIndex 13) :=
  rfl

/-- V-H-2, V-H-3, V-H-5: the host's ports. -/
theorem test_host :
    answers (hostRead8 (transact (at40 [] [] []) (.hostWrite64 0xF8 v)).1 0xFF) 0x11 = true ∧
    transact (at40 [] [] []) (.hostWrite64 0xFC v)
      = (at40 [] [] [], .refused (.hostAddressOutOfRange 0x100)) ∧
    answers (hostReadReg (transact (at40 [] [] []) (.hostWriteReg 0 7)).1 0) 7 = true := by decide

/-! ## Witnesses: for each statement with hypotheses, states and operands that meet them

The states are the ones of the tests above, or the smallest that meet the hypotheses. -/

/-- The two premises of `FetchedAs`: the bytes stand at x[1], and memory ends before byte k of them, for the
first and for the last k. -/
def FetchMet (bytes : List Byte) : Prop :=
  ((at40 [] bytes []).fault = none ∧ CodeAt (at40 [] bytes []) bytes) ∧
  ((boot 0x40 0x40 [] bytes []).fault = none ∧ 0 < bytes.length ∧
    CodeAt (boot 0x40 0x40 [] bytes []) (bytes.take 0) ∧
    (boot 0x40 0x40 [] bytes []).memSize.toNat ≤ ((boot 0x40 0x40 [] bytes []).reg ipReg).toNat + 0) ∧
  ∀ cut, cut = boot (0x3F + BitVec.ofNat 64 bytes.length) 0x40 [] bytes [] →
    cut.fault = none ∧ bytes.length - 1 < bytes.length ∧ CodeAt cut (bytes.take (bytes.length - 1)) ∧
    cut.memSize.toNat ≤ (cut.reg ipReg).toNat + (bytes.length - 1)

theorem wit_StackNeedsInitialising :
    (boot 8 0 [] [] []).reg spReg = 0 ∧ 8 ≤ (boot 8 0 [] [] []).memSize.toNat := by decide

theorem wit_StartOutsideMemoryFaults :
    (0x40 : Word).toNat ≤ (0x40 : Word).toNat ∧ m.toNat ≤ m.toNat ∧
    (boot 0 0 [] [] []).fault = none ∧ (boot 0 0 [] [] []).memSize = 0 := by decide

theorem wit_StepRunsDecodedInstruction :
    (at40 [] [0x01, 0x54, 0x06] []).fault = none ∧
    CodeAt (at40 [] [0x01, 0x54, 0x06] []) [0x01, 0x54, 0x06] ∧
    decode [0x01, 0x54, 0x06] = .ok (.add 4 5 6, []) := by
  unfold CodeAt
  exact ⟨rfl, by decide, rfl⟩

theorem wit_StepKeepsInvariant :
    (at40 [] [0x32, 0x54] []).Inv ∧ ∃ t, step (at40 [] [0x32, 0x54] []) = .next t := 
  ⟨⟨by decide, by decide, fun _ => ⟨(fun h => by cases h), (fun h => by cases h)⟩⟩, _, rfl⟩

theorem wit_EveryStepAnswersOneOutcome :
    (transact (at40 [] [0x02, 0x00] []) .step).2 = .outcome .continues ∧
    (transact (at40 [] [0x03] []) .step).2 = .outcome (.stop .halt) ∧
    (transact (at40 [] [0x13, 0x0D] []) .step).2 = .outcome (.fault (.invalidRegisterIndex 13)) ∧
    (at40 [] [0x13, 0x0D] []).fault = none := by decide

theorem wit_FaultIsTerminal :
    (at40 [] [0x13, 0x0D] []).fault = none ∧
    (∃ t, step (at40 [] [0x13, 0x0D] []) = .next t ∧ t.response = some (.fault (.invalidRegisterIndex 13))) ∧
    (next (at40 [] [0x13, 0x0D] [])).fault = some (.invalidRegisterIndex 13) ∧
    ∀ size start, Transaction.step ≠ .reset size start := ⟨by decide, ⟨_, rfl, rfl⟩, by decide, nofun⟩

theorem wit_StopDoesNotLatch :
    (at40 [] [0x03, 0x03] []).fault = none ∧
    (∃ t, step (at40 [] [0x03, 0x03] []) = .next t ∧ t.response = some (.stop .halt) ∧
      CodeAt t [0x03]) ∧ decode [0x03] = .ok (.halt, []) := by
  refine ⟨by decide, ⟨_, rfl, rfl, ?_⟩, rfl⟩
  unfold CodeAt
  decide

theorem wit_FetchReadsThenIncrements :
    ((boot 0x41 0x40 [] [] []).reg ipReg).toNat < (boot 0x41 0x40 [] [] []).memSize.toNat ∧
    (boot 0x40 0x40 [] [] []).memSize.toNat ≤ ((boot 0x40 0x40 [] [] []).reg ipReg).toNat ∧
    (boot 0x40 0x40 [] [] []).fault = none ∧
    ((boot m m [] [] []).reg ipReg).toNat = 2 ^ 64 - 1 := by decide

theorem wit_DecoderIsTotal :
    (0x04 :: vBytes).length + 1 = lengthOf 0x12 ∧ ([] : List Byte).length + 1 = lengthOf 0xFF ∧
    lengthOf 0x12 ≤ (0x04 :: vBytes).length + 1 ∧ vBytes.length + 1 < lengthOf 0x12 ∧
    FetchMet (0x12 :: 0x04 :: vBytes) := by
  simp only [FetchMet, CodeAt, forall_eq]
  decide

theorem wit_PriorityWithinOneStep :
    (next (at40 [] [0x13, 0x0D] [])).fault = some (.invalidRegisterIndex 13) ∧
    [0x65].length + 1 = lengthOf 0x22 ∧
    (∃ t, exec .halt (at40 [] [] []) = .next t ∧ t.response = some (.stop .halt)) ∧
    firstInvalid (usedFields (.divmod 12 13 14 15)) = some 13 ∧
    firstInvalid (usedFields (.divmod 12 12 12 15)) = some 15 ∧
    firstInvalid (usedFields (.read 5 6)) = none ∧
    dataAddress (at40 [(5, 0xF9)] [] []) (.read 5 6) = some 0xF9 ∧
    firstMissing (at40 [(5, 0xF9)] [] []) 0xF9 = some 0x100 ∧
    firstMissing (at40 [(5, m)] [] []) m = some (2 ^ 64 - 1) ∧
    (∀ addr, dataAddress (at40 [(5, 0xF8)] [] []) (.read 5 6) = some addr →
      accessInBounds (at40 [(5, 0xF8)] [] []) addr) := by
  refine ⟨by decide, by decide, ⟨_, rfl, rfl⟩, by decide, by decide, by decide, by decide, by decide,
    by decide, fun addr h => ?_⟩
  cases h
  unfold accessInBounds
  decide

theorem wit_ZeroRegisterIsZeroedEachStep :
    (at40 [(0, 5)] [0x02, 0x00] []).fault = none := by decide

theorem wit_MemorySizeIsFixed :
    (∀ size start, Transaction.step ≠ .reset size start) ∧
    ∀ size start, Transaction.hostWrite64 0 v ≠ .reset size start := 
  ⟨nofun, nofun⟩

theorem wit_OnlyNamedRegistersChange :
    ∃ t, exec (.divmod 4 5 9 10) (at40 [] [] []) = .next t := ⟨_, rfl⟩

theorem wit_OnlyStoresChangeMemory :
    (∃ t, exec (.pop 7) (at40 [(3, 0xF8)] [] []) = .next t) ∧
    (∀ a b, Instr.pop 7 ≠ .write a b) ∧ (∀ a, Instr.pop 7 ≠ .push a) ∧
    (∃ t, exec (.write 4 5) (at40 [(5, 0xFC)] [] []) = .next t) ∧ regIndex 5 = .ok 5 ∧
    (∃ t, exec (.write 13 5) (at40 [(5, 0xFC)] [] []) = .next t) ∧ (firstInvalid [13, 5]).isSome ∧
    (∃ t, exec (.push 4) (at40 [(3, 0x100)] [] []) = .next t) ∧
    (∃ t, exec (.push 14) (at40 [(3, 0x100)] [] []) = .next t) ∧ (firstInvalid [14]).isSome := 
  ⟨⟨_, rfl⟩, nofun, nofun, ⟨_, rfl⟩, rfl, ⟨_, rfl⟩, by decide, ⟨_, rfl⟩,
    ⟨_, rfl⟩, by decide⟩

theorem wit_ControlChangesOnlyByWritingIp :
    (at40 [(3, 0x100)] [0x42, 0x04] []).fault = none ∧
    CodeAt (at40 [(3, 0x100)] [0x42, 0x04] []) [0x42, 0x04] ∧
    decode [0x42, 0x04] = .ok (.push 4, []) ∧
    (∃ t, step (at40 [(3, 0x100)] [0x42, 0x04] []) = .next t ∧ t.response = some .continues) ∧
    ipReg ∉ writtenRegs (.push 4) := by
  refine ⟨by decide, ?_, rfl, ⟨_, rfl, rfl⟩, by decide⟩
  unfold CodeAt
  decide

theorem wit_EncodeOfDecode :
    decode [0x01, 0x54, 0xF6, 0x03] = .ok (.add 4 5 6, [0x03]) := rfl

theorem wit_UnusedNibbleIsIgnored :
    formatOf 0x13 = .r1 ∧ formatOf 0x61 = .r3 ∧ formatOf 0x12 = .ri ∧ 8 ≤ vBytes.length := by decide

theorem wit_PseudoInstructions :
    (at40 [(7, v)] [] []).reg zeroReg = 0 := by decide

theorem wit_ByteAccess :
    0xFF < (at40 [] [] []).memSize.toNat ∧ (at40 [] [] []).memSize.toNat ≤ 0x100 := by decide

theorem wit_EightByteRead :
    (0xF8 : Word).toNat + 7 < (at40 [] [] []).memSize.toNat ∧
    ((∀ j, j < 7 → (0xF9 : Word).toNat + j < (at40 [] [] []).memSize.toNat) ∧
      (at40 [] [] []).memSize.toNat ≤ (0xF9 : Word).toNat + 7) ∧
    ((∀ j, j < 0 → (0x100 : Word).toNat + j < (at40 [] [] []).memSize.toNat) ∧
      (at40 [] [] []).memSize.toNat ≤ (0x100 : Word).toNat + 0) := by decide

theorem wit_EightByteWrite :
    (0xF8 : Word).toNat + 7 < (at40 [] [] []).memSize.toNat ∧
    ((∀ j, j < 7 → (0xF9 : Word).toNat + j < (at40 [] [] []).memSize.toNat) ∧
      (at40 [] [] []).memSize.toNat ≤ (0xF9 : Word).toNat + 7) ∧
    ((∀ j, j < 0 → (0x100 : Word).toNat + j < (at40 [] [] []).memSize.toNat) ∧
      (at40 [] [] []).memSize.toNat ≤ (0x100 : Word).toNat + 0) := by decide

theorem wit_CanonicalMemoryIsUnique :
    Memory.wf (Memory.write (Memory.write (Memory.write [] 7 3) 5 1) 7 0) ∧
    Memory.wf (Memory.write [] 5 1) ∧
    ∀ addr, Memory.read (Memory.write (Memory.write (Memory.write [] 7 3) 5 1) 7 0) addr
      = Memory.read (Memory.write [] 5 1) addr := ⟨by decide, by decide, fun _ => rfl⟩

theorem wit_WriteThenReadRoundTrips :
    accessInBounds (at40 [(4, v), (5, 0xF8)] [] []) ((at40 [(4, v), (5, 0xF8)] [] []).reg 5) ∧
    ∃ t, exec (.write (fieldOf 4) (fieldOf 5)) (at40 [(4, v), (5, 0xF8)] [] []) = .next t ∧
      (t.setReg 6 0xF8).mem = t.mem ∧ (t.setReg 6 0xF8).memSize = t.memSize ∧
      (t.setReg 6 0xF8).reg 6 = (at40 [(4, v), (5, 0xF8)] [] []).reg 5 := by
  unfold accessInBounds
  exact ⟨by decide, _, rfl, rfl, rfl, by decide⟩

/-- The last conjuncts: a state with the same memory whose x[1] is the last stored byte's address. -/
theorem wit_FetchSeesTheStore :
    accessInBounds (at40 [(4, v), (5, 0xF8)] [] []) ((at40 [(4, v), (5, 0xF8)] [] []).reg 5) ∧
    accessInBounds (at40 [(3, 0x100)] [] []) (pushAddress (at40 [(3, 0x100)] [] [])) ∧
    (0xFF : Word).toNat < (at40 [] [] []).memSize.toNat ∧ accessInBounds (at40 [] [] []) 0xF8 ∧
    ((at40 [] [] []).setReg ipReg 0xFF).mem = (at40 [] [] []).mem ∧
    ((at40 [] [] []).setReg ipReg 0xFF).memSize = (at40 [] [] []).memSize ∧
    (((at40 [] [] []).setReg ipReg 0xFF).reg ipReg).toNat = (0xF8 : Word).toNat + 7 := by
  unfold accessInBounds
  decide

theorem wit_RegisterFieldsAreValidated :
    (12 : Nibble).toNat ≤ 12 ∧ 13 ≤ (13 : Nibble).toNat ∧ 13 ≤ (15 : Nibble).toNat ∧
    firstInvalid (usedFields (.divmod 12 14 15 13)) = some 14 ∧ (at40 [] [] []).fault = none ∧
    firstInvalid (usedFields (.copy 12 12)) = none ∧
    ∃ t, exec (.copy 12 12) (at40 [] [] []) = .next t := 
  ⟨by decide, by decide, by decide, by decide, by decide, by decide, _, rfl⟩

theorem wit_StopReasonOfEveryOpcode :
    ∃ t, exec (instrOf 0xA7 []) (at40 [] [] []) = .next t ∧
    t.response = some (.stop .invalidInstructionCategory) := ⟨_, rfl, rfl⟩

/-- A fault of the fetch at its last and first byte (V-AR-29, V-INV-13), of a data access past its first byte
and at it (V-MEM-17, V-MEM-29), and of a register field (V-F-5). -/
theorem wit_FaultInfoIsTheCause :
    (boot 0x42 0x40 [] [0x01, 0x54] []).fault = none ∧
    (∃ t, step (boot 0x42 0x40 [] [0x01, 0x54] []) = .next t ∧ t.fault = some (.outOfBoundsAddress 0x42)) ∧
    (∃ t, step (boot 0x40 0x40 [] [] []) = .next t ∧ t.fault = some (.outOfBoundsAddress 0x40)) ∧
    (∃ t, step (at40 [(5, 0xF9)] [0x22, 0x65] []) = .next t ∧ t.fault = some (.outOfBoundsAddress 0x100)) ∧
    (∃ t, step (at40 [] [0x42, 0x04] []) = .next t ∧
      t.fault = some (.outOfBoundsAddress 0xFFFFFFFFFFFFFFF8)) ∧
    ∃ t, step (at40 [] [0x31, 0xED, 0xFC] []) = .next t ∧ t.fault = some (.invalidRegisterIndex 13) := 
  ⟨by decide, ⟨_, rfl, rfl⟩, ⟨_, rfl, rfl⟩, ⟨_, rfl, rfl⟩, ⟨_, rfl, rfl⟩, _, rfl, rfl⟩

theorem wit_InvalidStops :
    FetchMet [0x00] := by
  simp only [FetchMet, CodeAt, forall_eq]
  decide

theorem wit_UnassignedInvalidStops :
    FetchMet [0x10] ∧ FetchMet [0xF0] ∧
    1 ≤ (1 : Nibble).toNat ∧ 1 ≤ (15 : Nibble).toNat := by
  simp only [FetchMet, CodeAt, forall_eq]
  decide

theorem wit_UnassignedCategoryStops :
    FetchMet [0x04] ∧ FetchMet [0xFF] ∧
    4 ≤ (4 : Nibble).toNat ∧ 4 ≤ (15 : Nibble).toNat := by
  simp only [FetchMet, CodeAt, forall_eq]
  decide

theorem wit_UnassignedArithmeticStops :
    FetchMet [0x81] ∧ FetchMet [0xF1] ∧
    8 ≤ (8 : Nibble).toNat ∧ 8 ≤ (15 : Nibble).toNat := by
  simp only [FetchMet, CodeAt, forall_eq]
  decide

theorem wit_UnassignedMemoryStops :
    FetchMet [0x62] ∧ FetchMet [0xF2] ∧
    6 ≤ (6 : Nibble).toNat ∧ 6 ≤ (15 : Nibble).toNat := by
  simp only [FetchMet, CodeAt, forall_eq]
  decide

theorem wit_UnassignedControlFlowStops :
    FetchMet [0x23] ∧ FetchMet [0xF3] ∧
    2 ≤ (2 : Nibble).toNat ∧ 2 ≤ (15 : Nibble).toNat := by
  simp only [FetchMet, CodeAt, forall_eq]
  decide

theorem wit_AddGivesTheSum :
    FetchMet [0x01, 0x54, 0xF6] ∧
    firstInvalid [13, 14, 15] = some 13 ∧ firstInvalid [12, 15, 6] = some 15 ∧
    firstInvalid [4, 5, 14] = some 14 := by
  simp only [FetchMet, CodeAt, forall_eq]
  decide

theorem wit_SubGivesTheDifference :
    FetchMet [0x11, 0x54, 0xF6] ∧
    firstInvalid [13, 14, 15] = some 13 ∧ firstInvalid [12, 15, 6] = some 15 ∧
    firstInvalid [4, 5, 14] = some 14 := by
  simp only [FetchMet, CodeAt, forall_eq]
  decide

theorem wit_MulGivesTheLowProduct :
    FetchMet [0x21, 0x54, 0xF6] ∧
    firstInvalid [13, 14, 15] = some 13 ∧ firstInvalid [12, 15, 6] = some 15 ∧
    firstInvalid [4, 5, 14] = some 14 := by
  simp only [FetchMet, CodeAt, forall_eq]
  decide

theorem wit_AndIsBitwise :
    FetchMet [0x41, 0x54, 0xF6] ∧
    firstInvalid [13, 14, 15] = some 13 ∧ firstInvalid [12, 15, 6] = some 15 ∧
    firstInvalid [4, 5, 14] = some 14 := by
  simp only [FetchMet, CodeAt, forall_eq]
  decide

theorem wit_OrIsBitwise :
    FetchMet [0x51, 0x54, 0xF6] ∧
    firstInvalid [13, 14, 15] = some 13 ∧ firstInvalid [12, 15, 6] = some 15 ∧
    firstInvalid [4, 5, 14] = some 14 := by
  simp only [FetchMet, CodeAt, forall_eq]
  decide

theorem wit_XorIsBitwise :
    FetchMet [0x61, 0x54, 0xF6] ∧
    firstInvalid [13, 14, 15] = some 13 ∧ firstInvalid [12, 15, 6] = some 15 ∧
    firstInvalid [4, 5, 14] = some 14 := by
  simp only [FetchMet, CodeAt, forall_eq]
  decide

theorem wit_DivmodGivesQuotientAndRemainder :
    FetchMet [0x31, 0x54, 0xA9] ∧
    firstInvalid [13, 14, 12, 15] = some 13 ∧ firstInvalid [4, 14, 9, 10] = some 14 ∧
    firstInvalid [4, 5, 15, 13] = some 15 ∧ firstInvalid [4, 5, 9, 13] = some 13 ∧ (9 : RegIndex) ≠ 10 := by
  simp only [FetchMet, CodeAt, forall_eq]
  decide

/-- The last row of R100's table, with registers that hold its operands. -/
theorem wit_DivmodCorners :
    (0x8000000000000000, m, 0, 0x8000000000000000) ∈ divmodCorners ∧ (0, 0, 0, 0) ∈ divmodCorners ∧
    (at40 [(4, 0x8000000000000000), (5, m)] [] []).reg 4 = 0x8000000000000000 ∧
    (at40 [(4, 0x8000000000000000), (5, m)] [] []).reg 5 = m ∧ (9 : RegIndex) ≠ 10 := by decide

theorem wit_NotComplements :
    FetchMet [0x71, 0xB4] ∧
    firstInvalid [13, 14] = some 13 ∧ firstInvalid [4, 13] = some 13 ∧
    0 < 64 ∧ 63 < 64 := by
  simp only [FetchMet, CodeAt, forall_eq]
  decide

/-- The program of E1, and one whose sum goes to r1. -/
theorem wit_SubUndoesAdd :
    (at40 [(4, m), (5, 2)] [0x01, 0x54, 0x06, 0x11, 0x56, 0x07] []).fault = none ∧
    CodeAt (at40 [(4, m), (5, 2)] [0x01, 0x54, 0x06, 0x11, 0x56, 0x07] [])
      [0x01, nibblePair (fieldOf 5) (fieldOf 4), nibblePair 0 (fieldOf 6),
        0x11, nibblePair (fieldOf 5) (fieldOf 6), nibblePair 0 (fieldOf 7)] ∧
    (6 : RegIndex) ≠ ipReg ∧
    CodeAt (at40 [(4, 0x10)] [0x01, 0x14, 0x01, 0x11, 0x11, 0x01] [])
      [0x01, nibblePair (fieldOf 1) (fieldOf 4), nibblePair 0 (fieldOf ipReg),
        0x11, nibblePair (fieldOf 1) (fieldOf ipReg), nibblePair 0 (fieldOf 1)] := by
  unfold CodeAt
  decide

theorem wit_CopyMovesARegister :
    FetchMet [0x02, 0x74] ∧
    firstInvalid [15, 13] = some 15 ∧ firstInvalid [4, 13] = some 13 := by
  simp only [FetchMet, CodeAt, forall_eq]
  decide

theorem wit_LoadWritesTheImmediate :
    FetchMet (0x12 :: 0xF4 :: vBytes) ∧
    vBytes.length = 8 ∧
    (∀ k, k < 8 → vBytes.getD k 0 = v.extractLsb' (8 * k) 8) ∧ firstInvalid [13] = some 13 := by
  simp only [FetchMet, CodeAt, forall_eq]
  decide

theorem wit_ReadLoadsEightBytes :
    FetchMet [0x22, 0x65] ∧
    firstInvalid [15, 13] = some 15 ∧ firstInvalid [5, 13] = some 13 ∧
    ((at40 [(5, 0xF8)] [] []).reg 5).toNat + 7 < (at40 [(5, 0xF8)] [] []).memSize.toNat ∧
    ((∀ j, j < 7 → ((at40 [(5, 0xF9)] [] []).reg 5).toNat + j < (at40 [(5, 0xF9)] [] []).memSize.toNat) ∧
      (at40 [(5, 0xF9)] [] []).memSize.toNat ≤ ((at40 [(5, 0xF9)] [] []).reg 5).toNat + 7) ∧
    ((at40 [(5, 0x100)] [] []).memSize.toNat ≤ ((at40 [(5, 0x100)] [] []).reg 5).toNat + 0) := by
  simp only [FetchMet, CodeAt, forall_eq]
  decide

theorem wit_WriteStoresEightBytes :
    FetchMet [0x32, 0x54] ∧
    firstInvalid [15, 13] = some 15 ∧ firstInvalid [5, 13] = some 13 ∧
    ((at40 [(5, 0xF8)] [] []).reg 5).toNat + 7 < (at40 [(5, 0xF8)] [] []).memSize.toNat ∧
    ((∀ j, j < 7 → ((at40 [(5, 0xF9)] [] []).reg 5).toNat + j < (at40 [(5, 0xF9)] [] []).memSize.toNat) ∧
      (at40 [(5, 0xF9)] [] []).memSize.toNat ≤ ((at40 [(5, 0xF9)] [] []).reg 5).toNat + 7) ∧
    ((at40 [(5, 0x100)] [] []).memSize.toNat ≤ ((at40 [(5, 0x100)] [] []).reg 5).toNat + 0) := by
  simp only [FetchMet, CodeAt, forall_eq]
  decide

theorem wit_PushStoresBelowSp :
    FetchMet [0x42, 0xF4] ∧
    firstInvalid [13] = some 13 ∧
    ((0xF8 : Word) = (at40 [(3, 0x100), (4, v)] [] []).reg spReg - 8 ∧
      v = (if (4 : RegIndex) = spReg then 0xF8 else (at40 [(3, 0x100), (4, v)] [] []).reg 4) ∧
      (0xF8 : Word).toNat + 7 < (at40 [(3, 0x100), (4, v)] [] []).memSize.toNat) ∧
    ((0xF9 : Word) = (at40 [(3, 0x101)] [] []).reg spReg - 8 ∧
      (0xF9 : Word) = (if (3 : RegIndex) = spReg then 0xF9 else (at40 [(3, 0x101)] [] []).reg 3) ∧
      (∀ j, j < 7 → (0xF9 : Word).toNat + j < (at40 [(3, 0x101)] [] []).memSize.toNat) ∧
      (at40 [(3, 0x101)] [] []).memSize.toNat ≤ (0xF9 : Word).toNat + 7) ∧
    ((0xFFFFFFFFFFFFFFF8 : Word) = (at40 [] [] []).reg spReg - 8 ∧
      (at40 [] [] []).memSize.toNat ≤ (0xFFFFFFFFFFFFFFF8 : Word).toNat + 0) := by
  simp only [FetchMet, CodeAt, forall_eq]
  decide

theorem wit_PopLoadsFromSp :
    FetchMet [0x52, 0xF7] ∧
    firstInvalid [14] = some 14 ∧ (7 : RegIndex) ≠ spReg ∧
    ((at40 [(3, 0xF8)] [] []).reg 3).toNat + 7 < (at40 [(3, 0xF8)] [] []).memSize.toNat ∧
    ((∀ j, j < 7 → ((at40 [(3, 0xF9)] [] []).reg 3).toNat + j < (at40 [(3, 0xF9)] [] []).memSize.toNat) ∧
      (at40 [(3, 0xF9)] [] []).memSize.toNat ≤ ((at40 [(3, 0xF9)] [] []).reg 3).toNat + 7) ∧
    ((at40 [(3, 0x100)] [] []).memSize.toNat ≤ ((at40 [(3, 0x100)] [] []).reg 3).toNat + 0) := by
  simp only [FetchMet, CodeAt, forall_eq]
  decide

theorem wit_PushThenPopRestores :
    (4 : RegIndex) ≠ ipReg ∧ (at40 [(3, 0x100)] [0x42, 0x04, 0x52, 0x04] []).fault = none ∧
    CodeAt (at40 [(3, 0x100)] [0x42, 0x04, 0x52, 0x04] []) [0x42, nibblePair 0 (fieldOf 4), 0x52,
      nibblePair 0 (fieldOf 4)] ∧
    8 ≤ ((at40 [(3, 0x100)] [0x42, 0x04, 0x52, 0x04] []).reg spReg).toNat ∧
    ((at40 [(3, 0x100)] [0x42, 0x04, 0x52, 0x04] []).reg spReg).toNat
      ≤ (at40 [(3, 0x100)] [0x42, 0x04, 0x52, 0x04] []).memSize.toNat ∧
    ((at40 [(3, 0x100)] [0x42, 0x04, 0x52, 0x04] []).reg ipReg).toNat + 4
      ≤ ((at40 [(3, 0x100)] [0x42, 0x04, 0x52, 0x04] []).reg spReg).toNat - 8 ∧
    ((at40 [(3, 0x42)] [0x42, 0x04, 0x52, 0x04] []).reg spReg).toNat
      ≤ ((at40 [(3, 0x42)] [0x42, 0x04, 0x52, 0x04] []).reg ipReg).toNat + 2 := by
  unfold CodeAt
  decide

theorem wit_HaltStops :
    FetchMet [0x03] := by
  simp only [FetchMet, CodeAt, forall_eq]
  decide

theorem wit_CallSavesTheReturnAddress :
    FetchMet [0x13, 0xF8] ∧
    firstInvalid [13] = some 13 := by
  simp only [FetchMet, CodeAt, forall_eq]
  decide

theorem wit_HostAccess :
    (0xFF : Word).toNat < (at40 [] [] []).memSize.toNat ∧
    (at40 [] [] []).memSize.toNat ≤ (0x100 : Word).toNat ∧
    accessInBounds (at40 [] [] []) 0xF8 ∧ ¬ accessInBounds (at40 [] [] []) 0xF9 ∧ 12 < 13 ∧ 13 ≤ 13 := by
  unfold accessInBounds
  decide

theorem wit_RunEndsAtTheFirstStop :
    (∃ t, run 1 (at40 [] [0x03] []) = .halted t) ∧ (∃ t, run 1 (at40 [] [] []) = .stopped .invalidInstruction t) ∧
    (∃ t, run 1 (at40 [] [0x02, 0x00] []) = .running t) ∧
    run 1 (at40 [] [0x13, 0x0D] []) = .faulted (.invalidRegisterIndex 13) ∧
    ∀ t, run 1 (at40 [] [0x13, 0x0D] []) ≠ .running t := 
  ⟨⟨_, rfl⟩, ⟨_, rfl⟩, ⟨_, rfl⟩, rfl, nofun⟩

end Sys2Proof.Tests
end

/-! PROOFS. What every transaction keeps: the invariant `State.Inv`, and MEM_SIZE at all but RESET. -/

namespace Sys2Proof.Machine

/-! What a transaction can do, said once (R9). -/

@[simp] theorem readReply_fst {α : Type} (s : State) (reply : α → Reply) (r : Except Refusal α) :
    (readReply s reply r).1 = s := by
  cases r <;> rfl

/-- A host write is the whole store, or it is refused and changes nothing (D9). -/
theorem writeReply_hostWritten (s : State) (r : State × Option Fault) :
    (writeReply s (hostWritten r)).1 = r.1 ∨ (writeReply s (hostWritten r)).1 = s := by
  obtain ⟨t, _ | f⟩ := r
  · exact .inl rfl
  · exact .inr rfl

/-- The STEP port leaves what the step answers, or the state as it was. -/
theorem stepReply_cases (s : State) (r : Result) :
    r = .next (stepReply s r).1 ∨ (stepReply s r).1 = s := by
  cases r with
  | next t => left; simp only [stepReply]; split <;> rfl
  | fault f => exact .inr rfl
  | refused r => exact .inr rfl

theorem memWrite1_eq_memWriteBytes (s : State) (addr : Nat) (b : Byte) :
    s.memWrite1 addr b = s.memWriteBytes addr [b] := by
  rcases h : s.memWrite1 addr b with ⟨t, _ | f⟩ <;> simp [State.memWriteBytes, h]

/-- Everything a transaction can do to the state: reset it, step it, keep it, store bytes or set a register. -/
theorem transact_cases (s : State) (tr : Transaction) :
    (∃ size start, tr = .reset size start ∧ (transact s tr).1 = State.resetWith size start) ∨
    step s = .next (transact s tr).1 ∨
    (transact s tr).1 = s ∨
    (∃ addr bs, (transact s tr).1 = (s.memWriteBytes addr bs).1) ∨
    ∃ i v, (transact s tr).1 = s.setReg i v := by
  cases tr with
  | reset size start => exact .inl ⟨size, start, rfl, rfl⟩
  | step =>
    rcases stepReply_cases s (step s) with h | h
    · exact .inr (.inl h)
    · exact .inr (.inr (.inl h))
  | hostRead8 addr => exact .inr (.inr (.inl (readReply_fst ..)))
  | hostWrite8 addr b =>
    rcases writeReply_hostWritten s (s.memWrite1 addr.toNat b) with h | h
    · exact .inr (.inr (.inr (.inl ⟨addr.toNat, [b], h.trans (by rw [memWrite1_eq_memWriteBytes])⟩)))
    · exact .inr (.inr (.inl h))
  | hostRead64 addr => exact .inr (.inr (.inl (readReply_fst ..)))
  | hostWrite64 addr v =>
    rcases writeReply_hostWritten s (s.memWrite8 addr v) with h | h
    · exact .inr (.inr (.inr (.inl ⟨addr.toNat, bytesOfWord v, h⟩)))
    · exact .inr (.inr (.inl h))
  | hostReadReg i => exact .inr (.inr (.inl (readReply_fst ..)))
  | hostWriteReg i v =>
    by_cases h : i < 13
    · exact .inr (.inr (.inr (.inr ⟨⟨i, h⟩, v, by simp [transact, hostWriteReg, h, writeReply]⟩)))
    · exact .inr (.inr (.inl (by simp [transact, hostWriteReg, h, writeReply])))

/-- A step that answers a next state started with the latch clear (R146). -/
theorem step_next_unlatched {s t : State} (h : step s = .next t) : s.fault = none := by
  cases hf : s.fault with
  | none => rfl
  | some f => rw [step_latched s f hf] at h; cases h

theorem step_next_ends {s t : State} (h : step s = .next t) : Ends s t := by
  obtain ⟨u, hu, hEnds⟩ := step_ends s (step_next_unlatched h)
  obtain rfl : u = t := by simpa [hu] using h
  exact hEnds

/-! The invariant: it holds at reset, and each thing a transaction can do keeps it. -/

theorem resetWith_inv (size start : Word) : (State.resetWith size start).Inv :=
  ⟨⟨.nil, nofun⟩, nofun, fun _ => ⟨nofun, nofun⟩⟩

/-- An effect that starts with the latch clear leaves the latch in agreement with its answer. -/
theorem inv_of_ends {s t : State} (hs : s.Inv) (hf : s.fault = none) (h : Ends s t) : t.Inv := by
  obtain ⟨hwf, hbound, -⟩ := hs
  obtain ⟨-, hmem, hanswer⟩ := h
  obtain ⟨hwf', hbound'⟩ := hmem hwf hbound
  refine ⟨hwf', hbound', fun f => ?_⟩
  rcases hanswer with ⟨hfault, hresp | ⟨r, hresp⟩⟩ | ⟨g, hfault, hresp⟩
  · simp [hfault, hf, hresp]
  · simp [hfault, hf, hresp]
  · simp [hfault, hresp]

theorem step_inv {s t : State} (hs : s.Inv) (h : step s = .next t) : t.Inv :=
  inv_of_ends hs (step_next_unlatched h) (step_next_ends h)

theorem memWriteBytes_inv {s : State} (hs : s.Inv) (addr : Nat) (bs : List Byte) :
    (s.memWriteBytes addr bs).1.Inv := by
  obtain ⟨hwf, hbound, hlatch⟩ := hs
  obtain ⟨hwf', hbound'⟩ := memWriteBytes_wf bs s addr hwf hbound
  obtain ⟨-, hsize, hfault, hresp⟩ := memWriteBytes_fields bs s addr
  exact ⟨hwf', by rwa [hsize], by rwa [hfault, hresp]⟩

/-- No register takes part in the invariant. -/
theorem setReg_inv {s : State} (hs : s.Inv) (i : RegIndex) (v : Word) : (s.setReg i v).Inv := hs

theorem transact_inv {s : State} (hs : s.Inv) (tr : Transaction) : (transact s tr).1.Inv := by
  rcases transact_cases s tr with ⟨size, start, -, h⟩ | h | h | ⟨addr, bs, h⟩ | ⟨i, v, h⟩
  · exact h ▸ resetWith_inv size start
  · exact step_inv hs h
  · exact h.symm ▸ hs
  · exact h ▸ memWriteBytes_inv hs addr bs
  · exact h ▸ setReg_inv hs i v

theorem transacts_inv {s : State} (hs : s.Inv) (trs : List Transaction) :
    (trs.foldl (fun s tr => (transact s tr).1) s).Inv := by
  induction trs generalizing s with
  | nil => exact hs
  | cons tr trs ih => exact ih (transact_inv hs tr)

/-- Settles O6: each thing a step or a host transaction can do keeps the invariant, and RESET establishes it. -/
theorem stepKeepsInvariant : Obligations.StepKeepsInvariant :=
  ⟨fun _ _ => step_inv, fun _ tr hs => transact_inv hs tr,
    fun size start => transacts_inv (resetWith_inv size start)⟩

/-- Settles O14: of the things a transaction can do, only RESET sets MEM_SIZE. -/
theorem memorySizeIsFixed : Obligations.MemorySizeIsFixed := by
  intro s tr hreset
  rcases transact_cases s tr with ⟨size, start, htr, -⟩ | h | h | ⟨addr, bs, h⟩ | ⟨i, v, h⟩
  · exact absurd htr (hreset size start)
  · obtain ⟨hsize, -⟩ := step_next_ends h
    exact hsize
  · rw [h]
  · obtain ⟨-, hsize, -⟩ := memWriteBytes_fields bs s addr
    rw [h, hsize]
  · rw [h, setReg_memSize]

end Sys2Proof.Machine

/-! PROOFS. What an instruction does to registers: the fields it validates (R83), the registers it writes
(R25, R26, R29), and where control goes after it (R32). -/

namespace Sys2Proof.Machine

/-! Which registers a state keeps of another. -/

theorem keepsRegs_refl (s : State) (regs : List RegIndex) : KeepsRegs s s regs := fun _ _ => rfl

theorem keepsRegs_setReg {s t : State} {regs : List RegIndex} (h : KeepsRegs s t regs) {i : RegIndex}
    (hi : i ∈ regs) (v : Word) : KeepsRegs s (t.setReg i v) regs := by
  intro j hj
  have hij : i ≠ j := fun e => hj (e ▸ hi)
  rw [reg_setReg_other t i j v hij, h j hj]

/-- A destination field that names a register is among the registers `writtenRegs` lists for it. -/
theorem mem_fieldRegs {n : Nibble} {i : RegIndex} (h : n = fieldOf i) :
    i ∈ (regIndex n).toOption.toList := by
  simp [h, Except.toOption]

/-! How an effect ends once its fields are validated: no register outside the list has changed, and the latch
is as it was or holds an out-of-bounds access. -/

/-- The effect answers a state that keeps the registers outside `regs`, and raises no bad field. -/
def RunsTo (s : State) (regs : List RegIndex) (r : Result) : Prop :=
  ∃ t, r = .next t ∧ KeepsRegs s t regs ∧
    (t.fault = s.fault ∨ ∃ addr, t.fault = some (.outOfBoundsAddress addr))

theorem runsTo_complete {s t : State} {regs : List RegIndex} (hregs : KeepsRegs s t regs)
    (hfault : t.fault = s.fault) : RunsTo s regs (complete t) :=
  ⟨_, rfl, hregs, .inl hfault⟩

theorem runsTo_stop (s : State) (regs : List RegIndex) (reason : StopReason) :
    RunsTo s regs (stopWith reason s) :=
  ⟨_, rfl, keepsRegs_refl s regs, .inl rfl⟩

theorem runsTo_raise {s t : State} {regs : List RegIndex} (hregs : KeepsRegs s t regs) (addr : Word) :
    RunsTo s regs (raise (.outOfBoundsAddress addr) t) :=
  ⟨_, rfl, hregs, .inr ⟨addr, rfl⟩⟩

theorem runsTo_setReg {n : Nibble} {i : RegIndex} (h : n = fieldOf i) (s : State) (v : Word) :
    RunsTo s (regIndex n).toOption.toList (complete (s.setReg i v)) :=
  runsTo_complete (keepsRegs_setReg (keepsRegs_refl s _) (mem_fieldRegs h) v) rfl

theorem runsTo_store {s t : State} {regs : List RegIndex} (hregs : KeepsRegs s t regs)
    (hfault : t.fault = s.fault) (addr v : Word) : RunsTo s regs (finishStore (t.memWrite8 addr v)) := by
  have hkeeps : KeepsRegs s (t.memWrite8 addr v).1 regs := fun j hj => by rw [memWrite8_reg, hregs j hj]
  rw [finishStore_eq, memWrite8_fault]
  split_ifs with hin
  · exact runsTo_complete hkeeps (by rw [memWrite8_keeps_fault, hfault])
  · exact runsTo_raise hkeeps _

/-! Validation before the effect (R83). -/

/-- The result raises the first bad field with nothing else done, or runs an effect that writes `regs` at most. -/
def Validates (s : State) (fields : List Nibble) (regs : List RegIndex) (r : Result) : Prop :=
  (∃ n, firstInvalid fields = some n ∧ r = raise (.invalidRegisterIndex n) s) ∨
    (firstInvalid fields = none ∧ RunsTo s regs r)

section
variable {s : State} {a b o r : Nibble} {regs : List RegIndex}

theorem validates_stop (s : State) (reason : StopReason) : Validates s [] [] (stopWith reason s) :=
  .inr ⟨rfl, runsTo_stop s [] reason⟩

theorem validates_withReg {e : RegIndex → Result} (h : ∀ ia, a = fieldOf ia → RunsTo s regs (e ia)) :
    Validates s [a] regs (withReg a s e) := by
  rcases withReg_cases s a e with ⟨ia, ha, hnone, he⟩ | ⟨hbad, he⟩
  · exact .inr ⟨hnone, he ▸ h ia ha⟩
  · exact .inl ⟨a, hbad, he⟩

theorem validates_withRegs2 {e : RegIndex → RegIndex → Result}
    (h : ∀ ia ib, b = fieldOf ib → RunsTo s regs (e ia ib)) :
    Validates s [a, b] regs (withRegs2 a b s e) := by
  rcases withRegs2_cases s a b e with ⟨ia, ib, -, hb, hnone, he⟩ | ⟨n, hbad, he⟩
  · exact .inr ⟨hnone, he ▸ h ia ib hb⟩
  · exact .inl ⟨n, hbad, he⟩

theorem validates_withRegs3 {e : RegIndex → RegIndex → RegIndex → Result}
    (h : ∀ ia ib io, o = fieldOf io → RunsTo s regs (e ia ib io)) :
    Validates s [a, b, o] regs (withRegs3 a b o s e) := by
  rcases withRegs3_cases s a b o e with ⟨ia, ib, io, -, -, ho, hnone, he⟩ | ⟨n, hbad, he⟩
  · exact .inr ⟨hnone, he ▸ h ia ib io ho⟩
  · exact .inl ⟨n, hbad, he⟩

theorem validates_withRegs4 {e : RegIndex → RegIndex → RegIndex → RegIndex → Result}
    (h : ∀ ia ib io ir, o = fieldOf io → r = fieldOf ir → RunsTo s regs (e ia ib io ir)) :
    Validates s [a, b, o, r] regs (withRegs4 a b o r s e) := by
  rcases withRegs4_cases s a b o r e with ⟨ia, ib, io, ir, -, -, ho, hr, hnone, he⟩ | ⟨n, hbad, he⟩
  · exact .inr ⟨hnone, he ▸ h ia ib io ir ho hr⟩
  · exact .inl ⟨n, hbad, he⟩

end

theorem validates_binaryOp (f : Word → Word → Word) (a b o : Nibble) (s : State) :
    Validates s [a, b, o] (regIndex o).toOption.toList (binaryOp f a b o s) :=
  validates_withRegs3 fun _ _ _ ho => runsTo_setReg ho s _

theorem validates_divmod (a b o r : Nibble) (s : State) :
    Validates s [a, b, o, r] ((regIndex o).toOption.toList ++ (regIndex r).toOption.toList)
      (execDivmod a b o r s) :=
  validates_withRegs4 fun _ _ _ _ ho hr =>
    runsTo_complete (keepsRegs_setReg (keepsRegs_setReg (keepsRegs_refl s _)
      (List.mem_append_left _ (mem_fieldRegs ho)) _) (List.mem_append_right _ (mem_fieldRegs hr)) _) rfl

theorem validates_read (a b : Nibble) (s : State) :
    Validates s [a, b] (regIndex b).toOption.toList (execRead a b s) :=
  validates_withRegs2 fun ia _ hb => by
    rcases memRead8_cases s (indirectAddress s ia) with ⟨-, h⟩ | ⟨-, h⟩ <;> rw [h]
    · exact runsTo_setReg hb s _
    · exact runsTo_raise (keepsRegs_refl s _) _

theorem validates_push (a : Nibble) (s : State) : Validates s [a] [spReg] (execPush a s) :=
  validates_withReg fun _ _ =>
    runsTo_store (keepsRegs_setReg (keepsRegs_refl s _) (List.mem_singleton.2 rfl) _) rfl _ _

theorem validates_pop (a : Nibble) (s : State) :
    Validates s [a] ((regIndex a).toOption.toList ++ [spReg]) (execPop a s) :=
  validates_withReg fun _ ha => by
    rcases memRead8_cases s (popAddress s) with ⟨-, h⟩ | ⟨-, h⟩ <;> rw [h]
    · exact runsTo_complete (keepsRegs_setReg (keepsRegs_setReg (keepsRegs_refl s _)
        (List.mem_append_left _ (mem_fieldRegs ha)) _)
        (List.mem_append_right _ (List.mem_singleton.2 rfl)) _) rfl
    · exact runsTo_raise (keepsRegs_refl s _) _

theorem validates_call (a : Nibble) (s : State) : Validates s [a] [raReg, ipReg] (execCall a s) :=
  validates_withReg fun _ _ =>
    runsTo_complete (keepsRegs_setReg (keepsRegs_setReg (keepsRegs_refl s _) (by simp) _) (by simp) _) rfl

/-- Every instruction validates the fields it uses, and then writes at most the registers `writtenRegs` lists. -/
theorem exec_validates (i : Instr) (s : State) :
    Validates s (usedFields i) (writtenRegs i) (exec i s) := by
  cases i with
  | invalid => exact validates_stop s _
  | add a b o => exact validates_binaryOp _ a b o s
  | sub a b o => exact validates_binaryOp _ a b o s
  | mul a b o => exact validates_binaryOp _ a b o s
  | divmod a b o r => exact validates_divmod a b o r s
  | and a b o => exact validates_binaryOp _ a b o s
  | or a b o => exact validates_binaryOp _ a b o s
  | xor a b o => exact validates_binaryOp _ a b o s
  | not a o => exact validates_withRegs2 fun _ _ ho => runsTo_setReg ho s _
  | copy a b => exact validates_withRegs2 fun _ _ hb => runsTo_setReg hb s _
  | load a imm => exact validates_withReg fun _ ha => runsTo_setReg ha s imm
  | read a b => exact validates_read a b s
  | write a b => exact validates_withRegs2 fun _ _ _ => runsTo_store (keepsRegs_refl s _) rfl _ _
  | push a => exact validates_push a s
  | pop a => exact validates_pop a s
  | halt => exact validates_stop s _
  | call a => exact validates_call a s
  | stopInvalidInvalid1 => exact validates_stop s _
  | stopInvalidInvalid2 x => exact validates_stop s _
  | stopInvalidInvalid4 x => exact validates_stop s _
  | stopInvalidInvalid8 x => exact validates_stop s _
  | stopInvalidArithmetic8 x => exact validates_stop s _
  | stopInvalidMemory6 x => exact validates_stop s _
  | stopInvalidMemory8 x => exact validates_stop s _
  | stopInvalidControlFlow2 x => exact validates_stop s _
  | stopInvalidControlFlow4 x => exact validates_stop s _
  | stopInvalidControlFlow8 x => exact validates_stop s _
  | stopInvalidCategory4 ins x => exact validates_stop s _
  | stopInvalidCategory8 ins x => exact validates_stop s _

theorem exec_keepsRegs {i : Instr} {s t : State} (h : exec i s = .next t) :
    KeepsRegs s t (writtenRegs i) := by
  rcases exec_validates i s with ⟨n, -, hraise⟩ | ⟨-, u, hu, hregs, -⟩
  · obtain rfl : s.latch _ = t := by simpa [raise, hraise] using h
    exact keepsRegs_refl s _
  · obtain rfl : u = t := by simpa [hu] using h
    exact hregs

/-- The first bad field of an instruction is all that its execution answers (R83). -/
theorem exec_raises {i : Instr} {n : Nibble} (h : firstInvalid (usedFields i) = some n) (s : State) :
    exec i s = raise (.invalidRegisterIndex n) s := by
  rcases exec_validates i s with ⟨m, hm, hraise⟩ | ⟨hnone, -⟩
  · obtain rfl : m = n := by simpa [hm] using h
    exact hraise
  · simp [hnone] at h

/-- Settles O15: what validation raises changes no register, and the effect writes the listed ones only. -/
theorem onlyNamedRegistersChange : Obligations.OnlyNamedRegistersChange :=
  fun _ _ _ => exec_keepsRegs

/-- Settles O31: `regIndex` splits at 13, and every instruction validates before its effect, which itself
raises out-of-bounds accesses only. -/
theorem registerFieldsAreValidated : Obligations.RegisterFieldsAreValidated := by
  refine ⟨fun n hn => ?_, fun n hn => ?_, fun i s n hn => ?_, fun i s t hs hvalid ht n hfault => ?_⟩
  · exact ⟨⟨n.toNat, by omega⟩, dif_pos (by omega), rfl⟩
  · exact dif_neg (by omega)
  · exact ⟨s.latch _, exec_raises hn s, ⟨rfl, rfl⟩, keepsRegs_refl s [], rfl, fun _ => rfl⟩
  · rcases exec_validates i s with ⟨m, hm, -⟩ | ⟨-, u, hu, -, hlatch⟩
    · simp [hvalid] at hm
    · obtain rfl : u = t := by simpa [hu] using ht
      rcases hlatch with hkept | ⟨addr, hbounds⟩
      · simp [hkept, hs] at hfault
      · simp [hbounds] at hfault

/-! Running the bytes that stand at x[1]. -/

/-- The zeroing of r0 leaves the code at x[1] in place. -/
theorem codeAt_beginStep {s : State} {bytes : List Byte} (h : CodeAt s bytes) :
    CodeAt (beginStep s) bytes := by
  simpa [CodeAt] using h

theorem codeAt_append_left {s : State} {xs ys : List Byte} (h : CodeAt s (xs ++ ys)) : CodeAt s xs := by
  intro k hk
  obtain ⟨hbound, hread⟩ := h k (by simp; omega)
  exact ⟨hbound, by rw [hread, List.getD_append _ _ _ _ hk]⟩

/-- Code after the first part stands at x[1] of a state of the same memory that has passed that part. -/
theorem codeAt_append_right {s t : State} {xs ys : List Byte} (h : CodeAt s (xs ++ ys))
    (hmem : t.mem = s.mem) (hsize : t.memSize = s.memSize)
    (hip : (t.reg ipReg).toNat = (s.reg ipReg).toNat + xs.length) : CodeAt t ys := by
  intro k hk
  obtain ⟨hbound, hread⟩ := h (xs.length + k) (by simp; omega)
  rw [hmem, hsize, hip, Nat.add_assoc]
  exact ⟨hbound, by rw [hread, List.getD_append_right _ _ _ _ (by omega), Nat.add_sub_cancel_left]⟩

/-- Code at x[1] ends inside memory, so x[1] does not wrap on the way past it (R34). -/
theorem codeAt_end_le {s : State} {op : Byte} {ops : List Byte} (h : CodeAt s (op :: ops)) :
    (s.reg ipReg).toNat + (ops.length + 1) ≤ s.memSize.toNat := by
  obtain ⟨hbound, -⟩ := h ops.length (by simp)
  omega

/-- An opcode byte and its operand bytes at x[1] are what is fetched (R81, R82). -/
theorem fetchInstr_codeAt {s : State} {op : Byte} {ops : List Byte} (hcode : CodeAt s (op :: ops))
    (hlen : ops.length = operandCount op) :
    fetchInstr s = .ok (instrOf op ops, advance s (ops.length + 1)) := by
  have hend := codeAt_end_le hcode
  have hop : Memory.read s.mem (s.reg ipReg).toNat = op := (hcode 0 (by simp)).2
  rcases fetchInstr_cases s with ⟨op', ops', -, -, hbytes, hfetch⟩ | ⟨k, hk, hcut, hcount, -⟩
  · obtain rfl : op' = op := by simpa [List.range_succ_eq_map, hop] using congrArg List.head? hbytes
    have hread := codeAt_eq_map hcode
    rw [List.length_cons, hlen, ← hbytes] at hread
    obtain rfl : ops = ops' := (List.cons.inj hread).2
    rw [hfetch, hlen]
  · rw [hop] at hcount
    omega

/-- A step runs the instruction whose bytes stand at x[1] (R80 to R84). -/
theorem step_codeAt {s : State} {op : Byte} {ops : List Byte} (hs : s.fault = none)
    (hcode : CodeAt s (op :: ops)) (hlen : ops.length = operandCount op) :
    step s = exec (instrOf op ops) (afterFetch s (ops.length + 1)) := by
  rw [step_unlatched s hs, fetchInstr_codeAt (codeAt_beginStep hcode) hlen, afterFetch_eq]

/-- A byte list that decodes with nothing left over is an opcode byte with its operand bytes (R65). -/
theorem decode_exact {bytes : List Byte} {i : Instr} (h : decode bytes = .ok (i, [])) :
    ∃ op ops, bytes = op :: ops ∧ ops.length = operandCount op ∧ i = instrOf op ops := by
  cases bytes with
  | nil => cases h
  | cons op ops =>
    rcases decode_cons op ops with ⟨-, hdec⟩ | ⟨hle, hdec⟩
    · simp [hdec] at h
    · obtain ⟨hi, hrest⟩ :
          instrOf op (ops.take (operandCount op)) = i ∧ ops.drop (operandCount op) = [] := by
        simpa [hdec] using h
      have hlen : ops.length = operandCount op := by
        have := List.drop_eq_nil_iff.1 hrest
        omega
      exact ⟨op, ops, rfl, hlen, by rw [← hi, ← hlen, List.take_length]⟩

theorem afterFetch_ip (s : State) (n : Nat) :
    (afterFetch s n).reg ipReg = s.reg ipReg + BitVec.ofNat 64 n := by
  simp [reg_afterFetch]

theorem afterFetch_zero (s : State) (n : Nat) : (afterFetch s n).reg zeroReg = 0 := by
  rw [reg_afterFetch, if_neg (by decide), if_pos rfl]

theorem afterFetch_other (s : State) (n : Nat) {j : RegIndex} (hip : j ≠ ipReg) (hzero : j ≠ zeroReg) :
    (afterFetch s n).reg j = s.reg j := by
  rw [reg_afterFetch, if_neg hip, if_neg hzero]

theorem afterFetch_ip_toNat {s : State} {n : Nat} (h : (s.reg ipReg).toNat + n ≤ s.memSize.toNat) :
    ((afterFetch s n).reg ipReg).toNat = (s.reg ipReg).toNat + n := by
  rw [afterFetch_ip, ← advance_ip, advance_ip_toNat s n h]

/-- Settles O17: the fetch leaves x[1] past the instruction, and the effect keeps a register it does not list. -/
theorem controlChangesOnlyByWritingIp : Obligations.ControlChangesOnlyByWritingIp := by
  intro s t bytes i hs hcode hdec hstep _ hip
  obtain ⟨op, ops, rfl, hlen, rfl⟩ := decode_exact hdec
  rw [step_codeAt hs hcode hlen] at hstep
  rw [exec_keepsRegs hstep ipReg hip, afterFetch_ip_toNat (codeAt_end_le hcode), List.length_cons]

/-! r0 (R23). -/

/-- What r0 held before a step reaches nothing (R23, R80). -/
theorem step_setReg_zeroReg {s : State} (hs : s.fault = none) (v : Word) :
    step (s.setReg zeroReg v) = step s := by
  have hbegin : beginStep (s.setReg zeroReg v) = beginStep s := setReg_setReg_same s zeroReg v 0
  rw [step_unlatched s hs, step_unlatched (s.setReg zeroReg v) hs, hbegin]

theorem hostReadReg_zero (s : State) : hostReadReg s 0 = .ok (s.reg zeroReg) := rfl

theorem exec_copy (s : State) (ia ib : RegIndex) :
    exec (.copy (fieldOf ia) (fieldOf ib)) s = complete (s.setReg ib (s.reg ia)) :=
  withRegs2_fieldOf s ia ib _

/-- Settles O13: the step's first act overwrites r0, and every later read of it is an ordinary register read. -/
theorem zeroRegisterIsZeroedEachStep : Obligations.ZeroRegisterIsZeroedEachStep := by
  refine ⟨fun s v hs => step_setReg_zeroReg hs v, afterFetch_zero, fun s v => ⟨by simp, ?_⟩,
    fun s ia => ⟨_, exec_copy s ia zeroReg, by simp, ?_⟩⟩
  · rw [hostReadReg_zero, reg_setReg_same]
  · rw [hostReadReg_zero, respond_reg, reg_setReg_same]

/-! ADD and then SUB (R90, R91, R99). -/

theorem exec_add (s : State) (ia ib io : RegIndex) :
    exec (.add (fieldOf ia) (fieldOf ib) (fieldOf io)) s
      = complete (s.setReg io (s.reg ia + s.reg ib)) :=
  withRegs3_fieldOf s ia ib io _

theorem exec_sub (s : State) (ia ib io : RegIndex) :
    exec (.sub (fieldOf ia) (fieldOf ib) (fieldOf io)) s
      = complete (s.setReg io (s.reg ia - s.reg ib)) :=
  withRegs3_fieldOf s ia ib io _

/-- The state the ADD at x[1] leaves. -/
def added (s : State) (ia ib io : RegIndex) : State :=
  ((afterFetch s 3).setReg io ((afterFetch s 3).reg ia + (afterFetch s 3).reg ib)).respond .continues

theorem step_add {s : State} {ia ib io : RegIndex} {u : Nibble} (hs : s.fault = none)
    (hcode : CodeAt s [0x01, nibblePair (fieldOf ib) (fieldOf ia), nibblePair u (fieldOf io)]) :
    step s = .next (added s ia ib io) := by
  rw [step_codeAt hs hcode rfl, instrOf_add, exec_add]
  rfl

theorem step_sub {s : State} {ia ib io : RegIndex} {u : Nibble} (hs : s.fault = none)
    (hcode : CodeAt s [0x11, nibblePair (fieldOf ib) (fieldOf ia), nibblePair u (fieldOf io)]) :
    step s = complete ((afterFetch s 3).setReg io ((afterFetch s 3).reg ia - (afterFetch s 3).reg ib)) := by
  rw [step_codeAt hs hcode rfl, instrOf_sub, exec_sub]
  rfl

theorem reg_added (s : State) (ia ib io j : RegIndex) :
    (added s ia ib io).reg j
      = if io = j then (afterFetch s 3).reg ia + (afterFetch s 3).reg ib else (afterFetch s 3).reg j := by
  rw [added, respond_reg, reg_setReg]

theorem added_ip (s : State) (ia ib io : RegIndex) (h : io ≠ ipReg) :
    (added s ia ib io).reg ipReg = (afterFetch s 3).reg ipReg := by
  rw [reg_added, if_neg h]

/-- The code after an ADD that does not write x[1] is what the next step fetches. -/
theorem codeAt_added {s : State} {b0 b1 b2 : Byte} {rest : List Byte}
    (hcode : CodeAt s ([b0, b1, b2] ++ rest)) (ia ib io : RegIndex) (hio : io ≠ ipReg) :
    CodeAt (added s ia ib io) rest := by
  refine codeAt_append_right hcode rfl rfl ?_
  rw [added_ip s ia ib io hio]
  exact afterFetch_ip_toNat (codeAt_end_le (codeAt_append_left hcode))

/-! The operands of the SUB, as its own fetch leaves them. -/

/-- The sum is read back, but from r0, which the second step has zeroed (R23). -/
theorem afterFetch_added_sum (s : State) (ia ib io : RegIndex) (hio : io ≠ ipReg) :
    (afterFetch (added s ia ib io) 3).reg io
      = if io = zeroReg then 0 else (afterFetch s 3).reg ia + (afterFetch s 3).reg ib := by
  rw [reg_afterFetch, if_neg hio, reg_added, if_pos rfl]

/-- x[1] is read 3 bytes on from where the ADD read it (R31). -/
theorem afterFetch_added_ip (s : State) (ia ib io : RegIndex) (hio : io ≠ ipReg) :
    (afterFetch (added s ia ib io) 3).reg ipReg = s.reg ipReg + 6 := by
  rw [afterFetch_ip, added_ip s ia ib io hio, afterFetch_ip, BitVec.add_assoc]
  rfl

/-- A register the sum did not overwrite, and r0, holds what it held when the ADD ran. -/
theorem afterFetch_added_other (s : State) (ia ib io j : RegIndex) (hj : j ≠ ipReg)
    (hkept : io = j → j = zeroReg) :
    (afterFetch (added s ia ib io) 3).reg j = (afterFetch s 3).reg j := by
  by_cases hzero : j = zeroReg
  · rw [hzero, afterFetch_zero, afterFetch_zero]
  · rw [afterFetch_other _ _ hj hzero, reg_added, if_neg fun hsum => hzero (hkept hsum)]

/-- What the SUB computes, by where the sum went and which operand it takes off. -/
theorem sub_after_added (s : State) (ia ib io : RegIndex) (hio : io ≠ ipReg) :
    (afterFetch (added s ia ib io) 3).reg io - (afterFetch (added s ia ib io) 3).reg ib
      = if io = zeroReg then 0 - (if ib = ipReg then s.reg ipReg + 6 else (afterFetch s 3).reg ib)
        else if io = ib then 0
        else if ib = ipReg then (afterFetch s 3).reg ia - 3
        else (afterFetch s 3).reg ia := by
  have hsum := afterFetch_added_sum s ia ib io hio
  split_ifs with hzero hip heq hip
  · rw [hsum, if_pos hzero, hip, afterFetch_added_ip s ia ipReg io hio]
  · rw [hsum, if_pos hzero, afterFetch_added_other s ia ib io ib hip fun h => h ▸ hzero]
  · exact heq ▸ BitVec.sub_self _
  · rw [hsum, if_neg hzero, hip, afterFetch_added_ip s ia ipReg io hio, afterFetch_ip]
    bv_omega
  · rw [hsum, if_neg hzero, afterFetch_added_other s ia ib io ib hip fun h => absurd h heq,
      BitVec.add_sub_cancel]

/-- Settles O49: the ADD leaves the SUB at x[1] unless it writes r1, and then the SUB's operands are as its own
fetch leaves them. -/
theorem subUndoesAdd : Obligations.SubUndoesAdd := by
  intro s ia ib io id u w hs hcode
  have hadd := step_add hs (codeAt_append_left (ys := [_, _, _]) hcode)
  refine ⟨fun hio => ?_, fun hio => ⟨added s ia ib io, hadd, ⟨rfl, rfl⟩, ?_⟩⟩
  · have hsub := step_sub (s := added s ia ib io) hs
      (codeAt_added (rest := [_, _, _]) hcode ia ib io hio)
    refine ⟨added s ia ib io, _, hadd, hsub, ⟨rfl, rfl⟩, ?_, fun hid => ?_, fun j hj => ?_,
      rfl, fun _ => rfl⟩
    · rw [respond_reg, reg_setReg_same, sub_after_added s ia ib io hio]
    · rw [respond_reg, reg_setReg_other _ _ _ _ hid, afterFetch_added_ip s ia ib io hio]
    · simp only [List.mem_cons, List.not_mem_nil, or_false, not_or] at hj
      obtain ⟨hzero, hip, hio', hid⟩ := hj
      rw [respond_reg, reg_setReg_other _ _ _ _ (Ne.symm hid),
        afterFetch_added_other s ia ib io j hip fun h => absurd h.symm hio',
        afterFetch_other s 3 hip hzero]
  · rw [reg_added, if_pos hio]

/-! RESET (R39, R170). -/

theorem reg_resetWith (size start : Word) (j : RegIndex) :
    (State.resetWith size start).reg j = if j = ipReg then start else 0 := by
  simp [State.reg, State.resetWith, Vector.getElem_set, Fin.ext_iff, ipReg, eq_comm]

/-- Settles O1: the one register RESET sets is x[1], and every other field is as its definition writes it. -/
theorem resetGivesTheStatedState : Obligations.ResetGivesTheStatedState :=
  fun size start _ => ⟨reg_resetWith size start, rfl, fun _ => rfl, rfl, rfl⟩

/-- Settles O2: `State.reset` is one of the RESETs that establish the invariant. -/
theorem resetMeetsInvariant : Obligations.ResetMeetsInvariant :=
  ⟨resetWith_inv _ _, resetWith_inv⟩

end Sys2Proof.Machine

/-! PROOFS. Memory: the byte and 8-byte accesses (R43 to R46), what a read sees of earlier writes (R53), the
canonical form (R40), which instructions store (R49), and that a fetch sees every store (R56, R181). -/

namespace Sys2Proof.Machine

/-! Which memory a state keeps of another. -/

theorem keepsMem_refl (s : State) : KeepsMem s s := ⟨rfl, fun _ => rfl⟩

/-- Memory that is the same data, and of the same size, is kept. -/
theorem keepsMem_of_eq {s t : State} (hmem : t.mem = s.mem) (hsize : t.memSize = s.memSize) :
    KeepsMem s t :=
  ⟨hsize, fun _ => by rw [hmem]⟩

theorem keepsMem_setReg (s : State) (i : RegIndex) (v : Word) : KeepsMem s (s.setReg i v) :=
  keepsMem_of_eq rfl rfl

theorem KeepsMem.outside {s t : State} (h : KeepsMem s t) (start n : Nat) : KeepsMemOutside s t start n :=
  ⟨h.1, fun addr _ => h.2 addr⟩

/-! The byte primitives (R43, R44). -/

section
variable {s : State} {addr : Nat}

theorem memRead1_inBounds (h : addr < s.memSize.toNat) :
    s.memRead1 addr = .ok (Memory.read s.mem addr) :=
  if_pos h

theorem memRead1_outOfBounds (h : s.memSize.toNat ≤ addr) :
    s.memRead1 addr = .error (.outOfBoundsAddress (BitVec.ofNat 64 addr)) :=
  if_neg (by omega)

theorem memWrite1_inBounds (h : addr < s.memSize.toNat) (b : Byte) :
    s.memWrite1 addr b = ({ s with mem := Memory.write s.mem addr b }, none) :=
  if_pos h

theorem memWrite1_outOfBounds (h : s.memSize.toNat ≤ addr) (b : Byte) :
    s.memWrite1 addr b = (s, some (.outOfBoundsAddress (BitVec.ofNat 64 addr))) :=
  if_neg (by omega)

end

theorem read_write_same (m : Memory) (addr : Nat) (b : Byte) :
    Memory.read (Memory.write m addr b) addr = b := by
  rw [read_write, if_pos rfl]

theorem read_write_other (m : Memory) {addr k : Nat} (h : addr ≠ k) (b : Byte) :
    Memory.read (Memory.write m addr b) k = Memory.read m k := by
  rw [read_write, if_neg h]

/-- Settles O24: each primitive tests the address once, and a write touches the byte at its own address. -/
theorem byteAccess : Obligations.ByteAccess := by
  intro s addr b
  refine ⟨fun h => ⟨memRead1_inBounds h, _, memWrite1_inBounds h b, read_write_same s.mem addr b,
    ⟨rfl, fun k hk => ?_⟩, keepsRegs_refl s [], rfl⟩,
    fun h => ⟨memRead1_outOfBounds h, memWrite1_outOfBounds h b⟩⟩
  exact read_write_other s.mem (by omega) b

/-! The 8-byte primitives (R45, R46). -/

/-- Byte k of the value of 8 bytes is the k-th of them. -/
theorem extractLsb'_wordOfBytes {bs : List Byte} (h : bs.length = 8) {k : Nat} (hk : k < 8) :
    (wordOfBytes bs).extractLsb' (8 * k) 8 = bs.getD k 0 := by
  rw [← getD_bytesOfWord _ k hk, bytesOfWord_wordOfBytes bs h]

/-- The first missing address of an access is its k-th when the ones before that exist and that one does not. -/
theorem max_eq_of_firstMissing {size addr k : Nat} (hbefore : ∀ j, j < k → addr + j < size)
    (hmissing : size ≤ addr + k) : max addr size = addr + k := by
  cases k with
  | zero => omega
  | succ k =>
    have hlast := hbefore k (Nat.lt_succ_self k)
    omega

/-- Settles O25: an 8-byte read is the value of its bytes, or raises at the larger of its address and the size
of memory, which is its first missing address. -/
theorem eightByteRead : Obligations.EightByteRead := by
  intro s addr
  rcases memRead8_cases s addr with ⟨hin, hread⟩ | ⟨hout, hread⟩
  · refine ⟨fun _ => ⟨_, hread, fun k hk => ?_⟩, fun k _ _ hmissing => by omega⟩
    rw [extractLsb'_wordOfBytes (by simp) hk]
    simp [List.getD, hk]
  · refine ⟨fun hin => by omega, fun k _ hbefore hmissing => ?_⟩
    rw [hread, max_eq_of_firstMissing hbefore hmissing]

section
variable {s : State} {addr : Word}

theorem memWrite8_inBounds (h : addr.toNat + 8 ≤ s.memSize.toNat) (v : Word) :
    s.memWrite8 addr v = ((s.memWrite8 addr v).1, none) :=
  Prod.ext rfl (by rw [memWrite8_fault, if_pos h])

theorem memWrite8_outOfBounds (h : s.memSize.toNat < addr.toNat + 8) (v : Word) :
    s.memWrite8 addr v = ((s.memWrite8 addr v).1,
      some (.outOfBoundsAddress (BitVec.ofNat 64 (max addr.toNat s.memSize.toNat)))) :=
  Prod.ext rfl (by rw [memWrite8_fault, if_neg (by omega)])

/-- A byte of the written range that exists holds its byte of the value. -/
theorem memWrite8_read_inside {k : Nat} (hk : k < 8) (h : addr.toNat + k < s.memSize.toNat) (v : Word) :
    Memory.read (s.memWrite8 addr v).1.mem (addr.toNat + k) = v.extractLsb' (8 * k) 8 := by
  rw [memWrite8_read, if_pos ⟨by omega, by omega, h⟩, Nat.add_sub_cancel_left]

/-- An 8-byte write keeps what lies outside any range that covers its existing bytes. -/
theorem memWrite8_keepsMemOutside {n : Nat} (h : 8 ≤ n ∨ s.memSize.toNat ≤ addr.toNat + n) (v : Word) :
    KeepsMemOutside s (s.memWrite8 addr v).1 addr.toNat n :=
  ⟨memWrite8_memSize s addr v, fun a ha => by rw [memWrite8_read, if_neg (by omega)]⟩

theorem memWrite8_keepsRegs (s : State) (addr v : Word) (regs : List RegIndex) :
    KeepsRegs s (s.memWrite8 addr v).1 regs :=
  fun j _ => memWrite8_reg s addr v j

end

/-- Settles O26: the existing bytes of the range are written and no others, and the fault is at the first
missing address. -/
theorem eightByteWrite : Obligations.EightByteWrite := by
  intro s addr v
  refine ⟨fun hin => ⟨_, memWrite8_inBounds (by omega) v,
    fun k hk => memWrite8_read_inside hk (by omega) v,
    memWrite8_keepsMemOutside (.inl (le_refl 8)) v, memWrite8_keepsRegs s addr v [],
    memWrite8_keeps_fault s addr v⟩, fun k hk hbefore hmissing => ?_⟩
  refine ⟨_, ?_, fun j hj => memWrite8_read_inside (by omega) (hbefore j hj) v,
    memWrite8_keepsMemOutside (.inr hmissing) v, memWrite8_keepsRegs s addr v [],
    memWrite8_keeps_fault s addr v⟩
  rw [← max_eq_of_firstMissing hbefore hmissing]
  exact memWrite8_outOfBounds (by omega) v

/-! A read after any writes (R53). -/

/-- Settles O27, by induction from the last write back: it decides the byte at its own address, and the writes
before it decide every other. -/
theorem readSeesTheLatestWrite : Obligations.ReadSeesTheLatestWrite := by
  intro m writes addr
  induction writes using List.reverseRecOn with
  | nil => rfl
  | append_singleton writes w ih =>
    rw [List.foldl_append, List.reverse_append]
    by_cases h : w.1 = addr
    · simp [h, read_write_same]
    · simp [h, read_write_other, ih]

/-! The canonical form is one for each memory (R40). -/

theorem wf_cons {c : Host.Cell} {m : Memory} :
    Memory.wf (c :: m) ↔ (∀ d ∈ m, c.1 < d.1) ∧ c.2 ≠ Config.unlistedByte ∧ Memory.wf m := by
  simp only [Memory.wf, List.pairwise_cons, List.forall_mem_cons]
  tauto

theorem read_cons_same (c : Host.Cell) (m : Memory) : Memory.read (c :: m) c.1 = c.2 :=
  if_pos rfl

theorem read_cons_other (c : Host.Cell) (m : Memory) {addr : Nat} (h : c.1 ≠ addr) :
    Memory.read (c :: m) addr = Memory.read m addr :=
  if_neg h

/-- A canonical memory differs at its first address from one that lists only later addresses. -/
theorem read_first_ne_of_below {c : Host.Cell} {m m' : Memory} (hwf : Memory.wf (c :: m))
    (hbelow : ∀ d ∈ m', c.1 < d.1) : Memory.read (c :: m) c.1 ≠ Memory.read m' c.1 := by
  obtain ⟨-, hlisted, -⟩ := wf_cons.1 hwf
  rwa [read_cons_same, read_of_lt hbelow]

/-- Of two canonical memories that read the same, neither begins at the lower address. -/
theorem first_le_of_read_eq {c c' : Host.Cell} {m m' : Memory} (hwf : Memory.wf (c :: m))
    (hwf' : Memory.wf (c' :: m'))
    (heq : ∀ addr, Memory.read (c :: m) addr = Memory.read (c' :: m') addr) : c'.1 ≤ c.1 := by
  by_contra hlt
  obtain ⟨hrising, -, -⟩ := wf_cons.1 hwf'
  refine read_first_ne_of_below hwf (fun d hd => ?_) (heq c.1)
  rcases List.mem_cons.1 hd with rfl | hd
  · omega
  · have := hrising d hd
    omega

/-- Canonical memories that begin with one cell and read the same read the same after it. -/
theorem read_tail_eq {c : Host.Cell} {m m' : Memory} (hwf : Memory.wf (c :: m))
    (hwf' : Memory.wf (c :: m'))
    (heq : ∀ addr, Memory.read (c :: m) addr = Memory.read (c :: m') addr) (addr : Nat) :
    Memory.read m addr = Memory.read m' addr := by
  obtain ⟨hbelow, -, -⟩ := wf_cons.1 hwf
  obtain ⟨hbelow', -, -⟩ := wf_cons.1 hwf'
  by_cases h : c.1 = addr
  · rw [← h, read_of_lt hbelow, read_of_lt hbelow']
  · rw [← read_cons_other c m h, heq, read_cons_other c m' h]

/-- Settles O28, by induction on one memory: equal contents begin with the same cell, and go on equally. -/
theorem canonicalMemoryIsUnique : Obligations.CanonicalMemoryIsUnique := by
  intro m
  induction m with
  | nil =>
    intro m' _ hwf' heq
    cases m' with
    | nil => rfl
    | cons c' m' => exact absurd (heq c'.1).symm (read_first_ne_of_below hwf' nofun)
  | cons c m ih =>
    intro m' hwf hwf' heq
    cases m' with
    | nil => exact absurd (heq c.1) (read_first_ne_of_below hwf nofun)
    | cons c' m' =>
      have haddr : c.1 = c'.1 := le_antisymm (first_le_of_read_eq hwf' hwf fun addr => (heq addr).symm)
        (first_le_of_read_eq hwf hwf' heq)
      have hbyte : c.2 = c'.2 := by
        rw [← read_cons_same c m, heq, haddr, read_cons_same]
      obtain rfl : c = c' := Prod.ext haddr hbyte
      obtain ⟨-, -, hwfTail⟩ := wf_cons.1 hwf
      obtain ⟨-, -, hwfTail'⟩ := wf_cons.1 hwf'
      rw [ih m' hwfTail hwfTail' (read_tail_eq hwf hwf' heq)]

/-! Which instructions store (R49). -/

/-- The result is a next state with the same memory. -/
def LeavesMem (s : State) (r : Result) : Prop := ∃ t, r = .next t ∧ KeepsMem s t

theorem leavesMem_complete {s t : State} (hmem : t.mem = s.mem) (hsize : t.memSize = s.memSize) :
    LeavesMem s (complete t) :=
  ⟨_, rfl, keepsMem_of_eq hmem hsize⟩

theorem leavesMem_stop (s : State) (reason : StopReason) : LeavesMem s (stopWith reason s) :=
  ⟨_, rfl, keepsMem_refl s⟩

theorem leavesMem_raise (s : State) (f : Fault) : LeavesMem s (raise f s) :=
  ⟨_, rfl, keepsMem_refl s⟩

section
variable {s : State} {a b o r : Nibble}

theorem leavesMem_withReg {e : RegIndex → Result} (h : ∀ ia, LeavesMem s (e ia)) :
    LeavesMem s (withReg a s e) := by
  rcases withReg_cases s a e with ⟨ia, -, -, he⟩ | ⟨-, he⟩ <;> rw [he]
  · exact h ia
  · exact leavesMem_raise s _

theorem leavesMem_withRegs2 {e : RegIndex → RegIndex → Result} (h : ∀ ia ib, LeavesMem s (e ia ib)) :
    LeavesMem s (withRegs2 a b s e) :=
  leavesMem_withReg fun ia => leavesMem_withReg (h ia)

theorem leavesMem_withRegs3 {e : RegIndex → RegIndex → RegIndex → Result}
    (h : ∀ ia ib io, LeavesMem s (e ia ib io)) : LeavesMem s (withRegs3 a b o s e) :=
  leavesMem_withRegs2 fun ia ib => leavesMem_withReg (h ia ib)

theorem leavesMem_withRegs4 {e : RegIndex → RegIndex → RegIndex → RegIndex → Result}
    (h : ∀ ia ib io ir, LeavesMem s (e ia ib io ir)) : LeavesMem s (withRegs4 a b o r s e) :=
  leavesMem_withRegs3 fun ia ib io => leavesMem_withReg (h ia ib io)

end

theorem leavesMem_binaryOp (f : Word → Word → Word) (a b o : Nibble) (s : State) :
    LeavesMem s (binaryOp f a b o s) :=
  leavesMem_withRegs3 fun _ _ _ => leavesMem_complete rfl rfl

theorem leavesMem_read (a b : Nibble) (s : State) : LeavesMem s (execRead a b s) :=
  leavesMem_withRegs2 fun ia _ => by
    rcases memRead8_cases s (indirectAddress s ia) with ⟨-, h⟩ | ⟨-, h⟩ <;> rw [h]
    · exact leavesMem_complete rfl rfl
    · exact leavesMem_raise s _

theorem leavesMem_pop (a : Nibble) (s : State) : LeavesMem s (execPop a s) :=
  leavesMem_withReg fun _ => by
    rcases memRead8_cases s (popAddress s) with ⟨-, h⟩ | ⟨-, h⟩ <;> rw [h]
    · exact leavesMem_complete rfl rfl
    · exact leavesMem_raise s _

/-- An instruction that is neither WRITE nor PUSH stores nothing. -/
theorem exec_leavesMem {i : Instr} (hwrite : ∀ a b, i ≠ .write a b) (hpush : ∀ a, i ≠ .push a)
    (s : State) : LeavesMem s (exec i s) := by
  cases i with
  | add a b o | sub a b o | mul a b o | and a b o | or a b o | xor a b o =>
    exact leavesMem_binaryOp _ a b o s
  | divmod a b o r => exact leavesMem_withRegs4 fun _ _ _ _ => leavesMem_complete rfl rfl
  | not a o | copy a o => exact leavesMem_withRegs2 fun _ _ => leavesMem_complete rfl rfl
  | load a imm => exact leavesMem_withReg fun _ => leavesMem_complete rfl rfl
  | call a => exact leavesMem_withReg fun _ => leavesMem_complete rfl rfl
  | read a b => exact leavesMem_read a b s
  | pop a => exact leavesMem_pop a s
  | write a b => exact absurd rfl (hwrite a b)
  | push a => exact absurd rfl (hpush a)
  | invalid | halt | stopInvalidInvalid1 => exact leavesMem_stop s _
  | stopInvalidInvalid2 x | stopInvalidInvalid4 x | stopInvalidInvalid8 x | stopInvalidArithmetic8 x
  | stopInvalidMemory6 x | stopInvalidMemory8 x | stopInvalidControlFlow2 x | stopInvalidControlFlow4 x
  | stopInvalidControlFlow8 x => exact leavesMem_stop s _
  | stopInvalidCategory4 ins x | stopInvalidCategory8 ins x => exact leavesMem_stop s _

/-- An instruction with a bad register field stores nothing (R83). -/
theorem exec_leavesMem_of_badField {i : Instr} (h : (firstInvalid (usedFields i)).isSome) (s : State) :
    LeavesMem s (exec i s) := by
  obtain ⟨n, hn⟩ := Option.isSome_iff_exists.1 h
  rw [exec_raises hn]
  exact leavesMem_raise s _

theorem LeavesMem.keepsMem {s t : State} {r : Result} (h : LeavesMem s r) (hr : r = .next t) :
    KeepsMem s t := by
  obtain ⟨u, hu, hkeeps⟩ := h
  obtain rfl : u = t := by simpa [hu] using hr
  exact hkeeps

/-- The end of a storing instruction adds nothing to what its store did to memory. -/
theorem finishStore_mem {p : State × Option Fault} {t : State} (h : finishStore p = .next t) :
    t.mem = p.1.mem ∧ t.memSize = p.1.memSize := by
  obtain ⟨u, _ | f⟩ := p
  · obtain rfl : u.respond .continues = t := by simpa [finishStore, complete] using h
    exact ⟨rfl, rfl⟩
  · obtain rfl : u.latch f = t := by simpa [finishStore, raise] using h
    exact ⟨rfl, rfl⟩

/-- The store may be made in a state that has changed registers before it, as PUSH does. -/
theorem finishStore_keepsMemOutside {s u t : State} {addr v : Word} (hkeeps : KeepsMem s u)
    (h : finishStore (u.memWrite8 addr v) = .next t) : KeepsMemOutside s t addr.toNat 8 := by
  obtain ⟨hmem, hsize⟩ := finishStore_mem h
  obtain ⟨hsize', houtside⟩ := memWrite8_keepsMemOutside (s := u) (addr := addr) (.inl (le_refl 8)) v
  refine ⟨by rw [hsize, hsize', hkeeps.1], fun a ha => ?_⟩
  rw [hmem, houtside a ha, hkeeps.2]

/-- WRITE with two good fields is the store (R113). -/
theorem exec_write (s : State) (ia ib : RegIndex) :
    exec (.write (fieldOf ia) (fieldOf ib)) s
      = finishStore (s.memWrite8 (indirectAddress s ib) (s.reg ia)) :=
  withRegs2_fieldOf s ia ib _

/-- PUSH with a good field is the store at the new sp, of x[a] as it is once sp has moved (R114, D5). -/
theorem exec_push (s : State) (ia : RegIndex) :
    exec (.push (fieldOf ia)) s
      = finishStore ((s.setReg spReg (pushAddress s)).memWrite8 (pushAddress s)
          (if ia = spReg then pushAddress s else s.reg ia)) := by
  have hvalue : (s.setReg spReg (pushAddress s)).reg ia
      = if ia = spReg then pushAddress s else s.reg ia := by
    simp only [reg_setReg, eq_comm]
  simp only [exec, execPush, withReg_fieldOf, reg_setReg_same, hvalue]

theorem write_keepsMemOutside {s t : State} {a b : Nibble} {ib : RegIndex} (hib : regIndex b = .ok ib)
    (h : exec (.write a b) s = .next t) : KeepsMemOutside s t (indirectAddress s ib).toNat 8 := by
  rcases withRegs2_cases s a b fun ia ib => finishStore (s.memWrite8 (indirectAddress s ib) (s.reg ia)) with
    ⟨ia, ib', rfl, rfl, -, -⟩ | ⟨n, hbad, -⟩
  · obtain rfl : ib' = ib := by simpa using hib
    rw [exec_write] at h
    exact finishStore_keepsMemOutside (keepsMem_refl s) h
  · have hleaves := exec_leavesMem_of_badField (i := .write a b) (Option.isSome_of_eq_some hbad) s
    exact (hleaves.keepsMem h).outside _ 8

theorem push_keepsMemOutside {s t : State} {a : Nibble} (h : exec (.push a) s = .next t) :
    KeepsMemOutside s t (pushAddress s).toNat 8 := by
  rcases regIndex_cases a with ⟨ia, rfl, -, -⟩ | ⟨-, hbad⟩
  · rw [exec_push] at h
    exact finishStore_keepsMemOutside (keepsMem_setReg s spReg (pushAddress s)) h
  · have hleaves := exec_leavesMem_of_badField (i := .push a) (by simp [usedFields, firstInvalid, hbad]) s
    exact (hleaves.keepsMem h).outside _ 8

/-- Settles O16: an instruction that is no store leaves memory, a bad field is raised before the store, and the
store keeps what lies outside its 8 bytes. -/
theorem onlyStoresChangeMemory : Obligations.OnlyStoresChangeMemory := by
  intro i s t h
  refine ⟨fun hwrite hpush => (exec_leavesMem hwrite hpush s).keepsMem h, ?_, ?_⟩
  · rintro a b rfl
    exact ⟨fun ib hib => write_keepsMemOutside hib h,
      fun hbad => (exec_leavesMem_of_badField (i := .write a b) hbad s).keepsMem h⟩
  · rintro a rfl
    exact ⟨push_keepsMemOutside h,
      fun hbad => (exec_leavesMem_of_badField (i := .push a) hbad s).keepsMem h⟩

/-! A fetch after a store (R56, R181). -/

/-- Fetches at the 8 bytes from an address on read the bytes of the value. -/
def FetchReadsWord (t : State) (addr v : Word) : Prop :=
  ∀ k, k < 8 → FetchReads t (addr.toNat + k) (v.extractLsb' (8 * k) 8)

theorem fetchReadsWord_memWrite8 {s : State} {addr : Word} (h : accessInBounds s addr) (v : Word) :
    FetchReadsWord (s.memWrite8 addr v).1 addr v := by
  intro k hk
  have hin : addr.toNat + k < s.memSize.toNat := by
    unfold accessInBounds at h
    omega
  exact fetchReads_of_read (by rwa [memWrite8_memSize]) (memWrite8_read_inside hk hin v)

/-- A store whose 8 bytes all exist completes, and fetches then read them. -/
theorem finishStore_fetchReadsWord {s : State} {addr : Word} (h : accessInBounds s addr) (v : Word) :
    ∃ t, finishStore (s.memWrite8 addr v) = .next t ∧ FetchReadsWord t addr v := by
  rw [memWrite8_inBounds h v]
  exact ⟨_, rfl, fetchReadsWord_memWrite8 h v⟩

theorem hostWrite8_fetchReads {s : State} {addr : Word} (h : addr.toNat < s.memSize.toNat) (b : Byte) :
    ∃ t, transact s (.hostWrite8 addr b) = (t, .done) ∧ FetchReads t addr.toNat b := by
  rw [transact, hostWrite8, memWrite1_inBounds h]
  exact ⟨_, rfl, fetchReads_of_read h (read_write_same s.mem addr.toNat b)⟩

theorem hostWrite64_fetchReadsWord {s : State} {addr : Word} (h : accessInBounds s addr) (v : Word) :
    ∃ t, transact s (.hostWrite64 addr v) = (t, .done) ∧ FetchReadsWord t addr v := by
  rw [transact, hostWrite64, memWrite8_inBounds h v]
  exact ⟨_, rfl, fetchReadsWord_memWrite8 h v⟩

/-- Settles O30: WRITE and PUSH end with the 8-byte store, the host's writes are the same primitives, and a
fetch reads memory as it is. -/
theorem fetchSeesTheStore : Obligations.FetchSeesTheStore := by
  refine ⟨fun s ia ib h => ?_, fun s ia h => ?_, fun _ _ b h => hostWrite8_fetchReads h b,
    fun _ _ v h => hostWrite64_fetchReadsWord h v⟩
  · rw [exec_write]
    exact finishStore_fetchReadsWord h _
  · rw [exec_push]
    exact finishStore_fetchReadsWord (s := s.setReg spReg (pushAddress s)) h _

end Sys2Proof.Machine

/-! PROOFS. Encoding: decoding undoes encoding (R63 to R68), the bytes an instruction is decoded from are its
encoding but for the unused nibble (R71), and every opcode byte has its one row of the table (R65 to R68). -/

namespace Sys2Proof

/-! Decoding what was encoded. -/

/-- An opcode byte with as many operand bytes as it calls for decodes to their instruction, whatever follows. -/
theorem decode_encode_of {i : Instr} {op : Byte} {ops : List Byte}
    (hlen : Laws.EncodeLength.Statement i) (henc : encode i = op :: ops) (hinstr : instrOf op ops = i)
    (rest : List Byte) : decode (encode i ++ rest) = .ok (i, rest) := by
  obtain ⟨op', ops', henc', hops, -⟩ := hlen
  obtain ⟨rfl, rfl⟩ := List.cons.inj (henc'.symm.trans henc)
  rw [henc', List.cons_append, decode_append op' ops' rest hops, hinstr]

open Laws in
/-- Settles O18, row by row of the table: the opcode calls for as many bytes as the encoding has, and the
decoder takes each field from where the encoder put it. -/
theorem decodeOfEncode : Obligations.DecodeOfEncode := by
  intro i rest
  cases i with
  | invalid => exact decode_encode_of EncodeLength.invalid rfl rfl rest
  | add a b o => exact decode_encode_of (EncodeLength.add a b o) rfl (instrOf_add a b o 0) rest
  | sub a b o => exact decode_encode_of (EncodeLength.sub a b o) rfl (instrOf_sub a b o 0) rest
  | mul a b o => exact decode_encode_of (EncodeLength.mul a b o) rfl (instrOf_mul a b o 0) rest
  | divmod a b o r => exact decode_encode_of (EncodeLength.divmod a b o r) rfl (instrOf_divmod a b o r) rest
  | and a b o => exact decode_encode_of (EncodeLength.and a b o) rfl (instrOf_and a b o 0) rest
  | or a b o => exact decode_encode_of (EncodeLength.or a b o) rfl (instrOf_or a b o 0) rest
  | xor a b o => exact decode_encode_of (EncodeLength.xor a b o) rfl (instrOf_xor a b o 0) rest
  | not a o => exact decode_encode_of (EncodeLength.not a o) rfl (instrOf_not a o) rest
  | copy a b => exact decode_encode_of (EncodeLength.copy a b) rfl (instrOf_copy a b) rest
  | load a imm =>
    refine decode_encode_of (EncodeLength.load a imm) rfl ?_ rest
    rw [instrOf_load, wordOfBytes_bytesOfWord]
  | read a b => exact decode_encode_of (EncodeLength.read a b) rfl (instrOf_read a b) rest
  | write a b => exact decode_encode_of (EncodeLength.write a b) rfl (instrOf_write a b) rest
  | push a => exact decode_encode_of (EncodeLength.push a) rfl (instrOf_push a 0) rest
  | pop a => exact decode_encode_of (EncodeLength.pop a) rfl (instrOf_pop a 0) rest
  | halt => exact decode_encode_of EncodeLength.halt rfl rfl rest
  | call a => exact decode_encode_of (EncodeLength.call a) rfl (instrOf_call a 0) rest
  | stopInvalidInvalid1 => exact decode_encode_of EncodeLength.stopInvalidInvalid1 rfl rfl rest
  | stopInvalidInvalid2 x =>
    exact decode_encode_of (EncodeLength.stopInvalidInvalid2 x) rfl (by revert x; decide) rest
  | stopInvalidInvalid4 x =>
    exact decode_encode_of (EncodeLength.stopInvalidInvalid4 x) rfl (by revert x; decide) rest
  | stopInvalidInvalid8 x =>
    exact decode_encode_of (EncodeLength.stopInvalidInvalid8 x) rfl (by revert x; decide) rest
  | stopInvalidArithmetic8 x =>
    exact decode_encode_of (EncodeLength.stopInvalidArithmetic8 x) rfl (by revert x; decide) rest
  | stopInvalidMemory6 x =>
    exact decode_encode_of (EncodeLength.stopInvalidMemory6 x) rfl (by revert x; decide) rest
  | stopInvalidMemory8 x =>
    exact decode_encode_of (EncodeLength.stopInvalidMemory8 x) rfl (by revert x; decide) rest
  | stopInvalidControlFlow2 x =>
    exact decode_encode_of (EncodeLength.stopInvalidControlFlow2 x) rfl (by revert x; decide) rest
  | stopInvalidControlFlow4 x =>
    exact decode_encode_of (EncodeLength.stopInvalidControlFlow4 x) rfl (by revert x; decide) rest
  | stopInvalidControlFlow8 x =>
    exact decode_encode_of (EncodeLength.stopInvalidControlFlow8 x) rfl (by revert x; decide) rest
  | stopInvalidCategory4 ins x =>
    exact decode_encode_of (EncodeLength.stopInvalidCategory4 ins x) rfl (by revert ins x; decide) rest
  | stopInvalidCategory8 ins x =>
    exact decode_encode_of (EncodeLength.stopInvalidCategory8 ins x) rfl (by revert ins x; decide) rest

/-- Two instructions never share an encoding. -/
theorem encode_injective : Function.Injective encode := by
  intro i j h
  have hi := decodeOfEncode i []
  rw [h, decodeOfEncode j []] at hi
  simpa using hi.symm

/-! The opcodes of each format (R66). -/

theorem opcode_of_r1 {op : Byte} (h : formatOf op = .r1) : op = 0x42 ∨ op = 0x52 ∨ op = 0x13 := by
  revert op; decide

theorem opcode_of_r2 {op : Byte} (h : formatOf op = .r2) :
    op = 0x71 ∨ op = 0x02 ∨ op = 0x22 ∨ op = 0x32 := by
  revert op; decide

theorem opcode_of_r3 {op : Byte} (h : formatOf op = .r3) :
    op = 0x01 ∨ op = 0x11 ∨ op = 0x21 ∨ op = 0x41 ∨ op = 0x51 ∨ op = 0x61 := by
  revert op; decide

theorem opcode_of_r4 {op : Byte} (h : formatOf op = .r4) : op = 0x31 := by
  revert op; decide

theorem opcode_of_ri {op : Byte} (h : formatOf op = .ri) : op = 0x12 := by
  revert op; decide

/-! Encoding what was decoded, format by format: the fields go back where they were taken from, and an unused
nibble comes back as zero (R63, R71). -/

theorem encode_instrOf_n {op : Byte} (h : formatOf op = .n) : encode (instrOf op []) = [op] := by
  revert op; decide

theorem encode_instrOf_r1 {op : Byte} (h : formatOf op = .r1) (b1 : Byte) :
    encode (instrOf op [b1]) = [op, nibblePair 0 (lowNibble b1)] := by
  rcases opcode_of_r1 h with rfl | rfl | rfl <;> rfl

theorem encode_instrOf_r2 {op : Byte} (h : formatOf op = .r2) (b1 : Byte) :
    encode (instrOf op [b1]) = [op, b1] := by
  have hfields : encode (instrOf op [b1]) = [op, nibblePair (highNibble b1) (lowNibble b1)] := by
    rcases opcode_of_r2 h with rfl | rfl | rfl | rfl <;> rfl
  rw [hfields, pair_nibbles]

theorem encode_instrOf_r3 {op : Byte} (h : formatOf op = .r3) (b1 b2 : Byte) :
    encode (instrOf op [b1, b2]) = [op, b1, nibblePair 0 (lowNibble b2)] := by
  have hfields : encode (instrOf op [b1, b2])
      = [op, nibblePair (highNibble b1) (lowNibble b1), nibblePair 0 (lowNibble b2)] := by
    rcases opcode_of_r3 h with rfl | rfl | rfl | rfl | rfl | rfl <;> rfl
  rw [hfields, pair_nibbles]

theorem encode_instrOf_r4 {op : Byte} (h : formatOf op = .r4) (b1 b2 : Byte) :
    encode (instrOf op [b1, b2]) = [op, b1, b2] := by
  have hfields : encode (instrOf op [b1, b2])
      = [op, nibblePair (highNibble b1) (lowNibble b1), nibblePair (highNibble b2) (lowNibble b2)] := by
    obtain rfl := opcode_of_r4 h
    rfl
  rw [hfields, pair_nibbles, pair_nibbles]

theorem encode_instrOf_ri {op : Byte} (h : formatOf op = .ri) (b1 : Byte) {imm : List Byte}
    (himm : imm.length = 8) :
    encode (instrOf op (b1 :: imm)) = op :: nibblePair 0 (lowNibble b1) :: imm := by
  have hfields : encode (instrOf op (b1 :: imm))
      = op :: nibblePair 0 (lowNibble b1) :: bytesOfWord (wordOfBytes imm) := by
    obtain rfl := opcode_of_ri h
    rfl
  rw [hfields, bytesOfWord_wordOfBytes imm himm]

/-- An opcode byte and its operand bytes, with the unused nibble cleared, are the encoding of their
instruction (R71). -/
theorem canonical_eq_encode {op : Byte} {ops : List Byte} (hlen : ops.length = operandCount op) :
    canonical (op :: ops) = encode (instrOf op ops) := by
  rw [operandCount] at hlen
  cases hformat : formatOf op with rw [hformat] at hlen
  | n =>
    obtain rfl := List.length_eq_zero_iff.1 hlen
    rw [canonical_used (.inl hformat), encode_instrOf_n hformat]
  | r1 =>
    obtain ⟨b1, rfl⟩ := List.length_eq_one_iff.1 hlen
    rw [canonical_r1 hformat, encode_instrOf_r1 hformat]
  | r2 =>
    obtain ⟨b1, rfl⟩ := List.length_eq_one_iff.1 hlen
    rw [canonical_used (.inr (.inl hformat)), encode_instrOf_r2 hformat]
  | r3 =>
    obtain ⟨b1, b2, rfl⟩ := List.length_eq_two.1 hlen
    rw [canonical_r3 hformat, encode_instrOf_r3 hformat]
  | r4 =>
    obtain ⟨b1, b2, rfl⟩ := List.length_eq_two.1 hlen
    rw [canonical_used (.inr (.inr hformat)), encode_instrOf_r4 hformat]
  | ri =>
    obtain ⟨b1, imm, rfl⟩ := List.exists_cons_of_length_eq_add_one hlen
    rw [canonical_ri hformat, encode_instrOf_ri hformat b1 (Nat.succ.inj hlen)]

/-- A byte list that decodes is an opcode byte, the operand bytes it calls for and the rest (R65). -/
theorem decode_ok {bytes rest : List Byte} {i : Instr} (h : decode bytes = .ok (i, rest)) :
    ∃ op ops, bytes = op :: ops ++ rest ∧ ops.length = operandCount op ∧ i = instrOf op ops := by
  cases bytes with
  | nil => cases h
  | cons op tail =>
    rcases decode_cons op tail with ⟨-, hdec⟩ | ⟨hle, hdec⟩ <;> rw [hdec] at h <;> cases h
    exact ⟨op, tail.take (operandCount op), by simp, by simpa using hle, rfl⟩

/-- Settles O19: the bytes read are the opcode byte and its operand bytes, whose canonical form is the
encoding. -/
theorem encodeOfDecode : Obligations.EncodeOfDecode := by
  intro bytes rest i h
  obtain ⟨op, ops, rfl, hlen, rfl⟩ := decode_ok h
  exact ⟨op :: ops, rfl, canonical_eq_encode hlen⟩

/-! The unused nibble (R71). -/

theorem canonical_encode (i : Instr) : canonical (encode i) = encode i := by
  obtain ⟨read, hread, hcanonical⟩ := encodeOfDecode _ _ _ (decodeOfEncode i [])
  obtain rfl := List.append_cancel_right hread
  exact hcanonical

/-- Operand bytes with the same canonical form decode identically: they have one encoding, so they are one
instruction. -/
theorem decode_congr_canonical {op : Byte} {ops ops' : List Byte} (hlen : ops.length = operandCount op)
    (hlen' : ops'.length = operandCount op) (h : canonical (op :: ops) = canonical (op :: ops'))
    (rest : List Byte) : decode (op :: (ops ++ rest)) = decode (op :: (ops' ++ rest)) := by
  have hinstr : instrOf op ops = instrOf op ops' := encode_injective <| by
    rw [← canonical_eq_encode hlen, h, canonical_eq_encode hlen']
  rw [decode_append op ops rest hlen, decode_append op ops' rest hlen', hinstr]

/-- Settles O22: in each of the three formats the bytes have one canonical form, whatever the unused nibble. -/
theorem unusedNibbleIsIgnored : Obligations.UnusedNibbleIsIgnored := by
  refine ⟨fun op a u rest h => ?_, fun op b1 o u rest h => ?_, fun op a u rest h hrest => ?_,
    canonical_encode⟩
  · have hcount : operandCount op = 1 := by rw [operandCount, h, Format.operands]
    refine decode_congr_canonical (ops := [_]) (ops' := [_]) hcount.symm hcount.symm ?_ rest
    simp only [canonical_r1 h, lowNibble_pair]
  · have hcount : operandCount op = 2 := by rw [operandCount, h, Format.operands]
    refine decode_congr_canonical (ops := [_, _]) (ops' := [_, _]) hcount.symm hcount.symm ?_ rest
    simp only [canonical_r3 h, lowNibble_pair]
  · have hcount : operandCount op = 9 := by rw [operandCount, h, Format.operands]
    have himm : (rest.take 8).length + 1 = operandCount op := by simp [hcount, hrest]
    rw [← List.take_append_drop 8 rest]
    refine decode_congr_canonical (ops := _ :: rest.take 8) (ops' := _ :: rest.take 8) himm himm ?_
      (rest.drop 8)
    simp only [canonical_ri h, lowNibble_pair]

/-! The opcode table (R65 to R68). -/

/-- The opcode byte alone gives the mnemonic. -/
theorem mnemonic_instrOf (op : Byte) (ops : List Byte) :
    mnemonic (instrOf op ops) = mnemonic (instrOf op []) := by
  unfold instrOf
  dsimp only
  split <;> split <;> rfl

theorem rows_of_opcode (op : Byte) :
    (opcodeTable.filter fun row => row.selects op).map (fun row => (row.mnemonic, row.length))
      = [(mnemonic (instrOf op []), lengthOf op)] := by
  revert op; decide

/-- Settles O20: operand bytes do not matter, and for the opcode byte alone the table is checked at all 256. -/
theorem everyOpcodeHasOneRow : Obligations.EveryOpcodeHasOneRow := by
  intro op ops
  rw [mnemonic_instrOf, rows_of_opcode]

/-- Settles O21: the decoder computes on each of the ten. -/
theorem sampleWordsDecode : Obligations.SampleWordsDecode :=
  ⟨rfl, rfl, rfl, rfl, rfl, rfl, rfl, rfl, rfl, rfl⟩

end Sys2Proof

/-! PROOFS. Fetching what the decoder calls for (R73), and the pseudo-instructions (R75). -/

namespace Sys2Proof.Machine

/-! The decoder is total (R73). -/

/-- Where memory ends before byte k of the code at x[1], fetching raises at that byte (R81, R82). -/
theorem fetchInstr_cut {s : State} {op : Byte} {ops : List Byte} {k : Nat}
    (hlen : ops.length = operandCount op) (hk : k < (op :: ops).length)
    (hcode : CodeAt s ((op :: ops).take k)) (hend : s.memSize.toNat ≤ (s.reg ipReg).toNat + k) :
    fetchInstr s = .error (.outOfBoundsAddress (s.reg ipReg + BitVec.ofNat 64 k), advance s k) := by
  rw [List.length_cons, hlen] at hk
  cases k with
  | zero =>
    rcases fetchInstr_cases s with ⟨_, _, _, hbound, -⟩ | ⟨j, hj, -, -, hfetch⟩
    · omega
    · obtain rfl : j = 0 := by omega
      exact hfetch
  | succ k =>
    rw [List.take_succ_cons] at hcode
    have hop : Memory.read s.mem (s.reg ipReg).toNat = op := (hcode 0 (by simp)).2
    have hpassed := codeAt_end_le hcode
    rw [List.length_take, Nat.min_eq_left (by omega)] at hpassed
    rcases fetchInstr_cases s with ⟨op', ops', hlen', hbound, hbytes, -⟩ | ⟨j, hj, hcut, -, hfetch⟩
    · obtain rfl : op' = op := by
        simpa [List.range_succ_eq_map, hop] using congrArg List.head? hbytes
      omega
    · obtain rfl : j = k + 1 := by omega
      exact hfetch

theorem faultsIn_latch (s : State) (f : Fault) : FaultsIn s (s.latch f) f :=
  ⟨⟨rfl, rfl⟩, keepsRegs_refl s [], keepsMem_refl s⟩

/-- Bytes of the length their opcode calls for are fetched as the instruction they decode to. -/
theorem fetchedAs_instrOf {op : Byte} {ops : List Byte} (hlen : ops.length = operandCount op) :
    FetchedAs (op :: ops) (instrOf op ops) := by
  refine ⟨fun s hs hcode => step_codeAt hs hcode hlen, fun s k hs hk hcode hend => ?_⟩
  refine ⟨(afterFetch s k).latch _, ?_, faultsIn_latch _ _⟩
  rw [step_unlatched s hs, fetchInstr_cut hlen hk (codeAt_beginStep hcode) (by simpa using hend),
    afterFetch_eq, BitVec.ofNat_add, BitVec.ofNat_toNat, BitVec.setWidth_eq, beginStep_ip]
  rfl

/-- Settles O11: an opcode byte fixes how many bytes follow, so fetching them ends in the instruction or at the
end of memory, and decoding them in the instruction or at the end of the list. -/
theorem decoderIsTotal : Obligations.DecoderIsTotal := by
  refine ⟨fun op ops hlen => fetchedAs_instrOf (Nat.succ.inj hlen), fun op rest => ?_⟩
  rw [lengthOf, Nat.add_sub_cancel]
  rcases decode_cons op rest with ⟨hshort, hdec⟩ | ⟨hlong, hdec⟩
  · exact ⟨fun h => by omega, fun _ => ⟨_, hdec⟩⟩
  · exact ⟨fun _ => hdec, fun h => by omega⟩

/-! The pseudo-instructions (R75). -/

theorem exec_load (s : State) (ia : RegIndex) (imm : Word) :
    exec (.load (fieldOf ia) imm) s = complete (s.setReg ia imm) :=
  withReg_fieldOf s ia _

/-- An instruction that ends by writing one register continues with the value there. -/
theorem continues_setReg {i : Instr} {s : State} {j : RegIndex} {v : Word}
    (h : exec i s = complete (s.setReg j v)) :
    ∃ t, exec i s = .next t ∧ Continues s t ∧ t.reg j = v :=
  ⟨_, h, ⟨rfl, rfl⟩, by rw [respond_reg, reg_setReg_same]⟩

theorem keepsRegs_setReg_self (s : State) (j : RegIndex) : KeepsRegs s (s.setReg j (s.reg j)) [] := by
  intro k _
  rw [reg_setReg]
  split
  · next h => rw [h]
  · rfl

/-- Settles O23: each is a COPY, LOAD or SUB of named registers, which ends by writing the one it names. -/
theorem pseudoInstructions : Obligations.PseudoInstructions := by
  refine ⟨⟨rfl, fun s _ => ?_⟩, ⟨rfl, fun s => continues_setReg (exec_copy s raReg ipReg)⟩,
    fun ia => ⟨rfl, fun s => continues_setReg (exec_copy s ia ipReg)⟩,
    fun imm => ⟨rfl, fun s => continues_setReg (exec_load s ipReg imm)⟩,
    fun io => ⟨rfl, fun s hzero => ?_⟩, fun ia io => ⟨rfl, fun s hzero => ?_⟩⟩
  · exact ⟨_, exec_copy s zeroReg zeroReg, ⟨rfl, rfl⟩, keepsRegs_setReg_self s zeroReg,
      keepsMem_refl s⟩
  · rw [← hzero]
    exact continues_setReg (exec_copy s zeroReg io)
  · rw [← hzero]
    exact continues_setReg (exec_sub s zeroReg ia io)

end Sys2Proof.Machine

/-! PROOFS. The step cycle: the fetch of one byte (R81), the step that joins the fetch to the effect (R80 to R84),
and the stops of the Invalid category and the unassigned categories (R86 to R88). -/

namespace Sys2Proof.Machine

/-! The fetch of one byte (R81). -/

theorem keepsRegs_advance (s : State) (n : Nat) : KeepsRegs s (advance s n) [ipReg] :=
  keepsRegs_setReg (keepsRegs_refl s _) (List.mem_singleton.2 rfl) _

theorem keepsMem_advance (s : State) (n : Nat) : KeepsMem s (advance s n) :=
  keepsMem_of_eq rfl rfl

/-- With no byte at x[1] the fetch of the opcode raises, and nothing has been passed (R81, D15). -/
theorem fetchInstr_outOfBounds {s : State} (h : s.memSize.toNat ≤ (s.reg ipReg).toNat) :
    fetchInstr s = .error (.outOfBoundsAddress (s.reg ipReg), s) := by
  simp only [fetchInstr, fetchByte_outOfBounds s h]

/-- A step with no byte at x[1] raises in the state whose r0 is zeroed. -/
theorem step_outOfBounds {s : State} (hs : s.fault = none) (h : s.memSize.toNat ≤ (s.reg ipReg).toNat) :
    step s = raise (.outOfBoundsAddress (s.reg ipReg)) (beginStep s) := by
  rw [step_unlatched s hs, fetchInstr_outOfBounds (by simpa using h), beginStep_ip]

/-- Settles O10: a fetch compares x[1] with MEM_SIZE once, and MEM_SIZE is at most 2^64 - 1. -/
theorem fetchReadsThenIncrements : Obligations.FetchReadsThenIncrements := by
  refine fun s => ⟨fun h => ?_, fun h => ?_, fun h => ?_⟩
  · exact ⟨advance s 1, fetchByte_inBounds s h, advance_ip_toNat s 1 h, keepsRegs_advance s 1,
      keepsMem_advance s 1, rfl⟩
  · exact ⟨fetchByte_outOfBounds s h, fun hs =>
      ⟨(beginStep s).latch _, step_outOfBounds hs h, beginStep_ip s, rfl, rfl⟩⟩
  · exact ⟨_, fetchByte_outOfBounds s (by rw [h]; have := s.memSize.isLt; omega)⟩

/-! The step (R80 to R84). -/

theorem keepsRegs_afterFetch (s : State) (n : Nat) : KeepsRegs s (afterFetch s n) [zeroReg, ipReg] :=
  keepsRegs_setReg (keepsRegs_setReg (keepsRegs_refl s _) (by simp) _) (by simp) _

theorem keepsMem_afterFetch (s : State) (n : Nat) : KeepsMem s (afterFetch s n) :=
  keepsMem_of_eq rfl rfl

/-- Settles O5: the bytes are an opcode byte and its operand bytes, which is what a step fetches, and they end
inside memory, so x[1] does not wrap past them. -/
theorem stepRunsDecodedInstruction : Obligations.StepRunsDecodedInstruction := by
  intro s bytes i hs hcode hdec
  obtain ⟨op, ops, rfl, hlen, rfl⟩ := decode_exact hdec
  exact ⟨step_codeAt hs hcode hlen, afterFetch_zero s _, afterFetch_ip_toNat (codeAt_end_le hcode),
    keepsRegs_afterFetch s _, keepsMem_afterFetch s _, hs⟩

/-! The stops (R86 to R88, R144). -/

theorem stopsIn_respond (s : State) (reason : StopReason) :
    StopsIn s (s.respond (.stop reason)) reason :=
  ⟨rfl, rfl, keepsRegs_refl s [], keepsMem_refl s⟩

/-- An instruction whose whole effect is to stop changes nothing but the answer. -/
theorem exec_stopsIn {i : Instr} {s : State} {reason : StopReason} (h : exec i s = stopWith reason s) :
    ∃ t, exec i s = .next t ∧ StopsIn s t reason :=
  ⟨_, h, stopsIn_respond s reason⟩

/-- Settles O34: the byte 0x00 calls for no operand bytes, and INVALID only stops. -/
theorem invalidStops : Obligations.InvalidStops :=
  ⟨fetchedAs_instrOf (op := 0x00) (ops := []) rfl, fun _ => exec_stopsIn rfl⟩

theorem operandCount_invalidCategory (ins : Nibble) : operandCount (nibblePair ins 0x0) = 0 := by
  revert ins; decide

/-- The unassigned numbers of the Invalid category are its four stop rows (R67, R87). -/
theorem instrOf_unassignedInvalid {ins : Nibble} (h : 1 ≤ ins.toNat) :
    instrOf (nibblePair ins 0x0) [] = .stopInvalidInvalid1 ∨
    instrOf (nibblePair ins 0x0) [] = .stopInvalidInvalid2 (ins.extractLsb' 0 1) ∨
    instrOf (nibblePair ins 0x0) [] = .stopInvalidInvalid4 (ins.extractLsb' 0 2) ∨
    instrOf (nibblePair ins 0x0) [] = .stopInvalidInvalid8 (ins.extractLsb' 0 3) := by
  revert ins; decide

theorem exec_unassignedInvalid {ins : Nibble} (h : 1 ≤ ins.toNat) (s : State) :
    exec (instrOf (nibblePair ins 0x0) []) s = stopWith .invalidInvalidInstruction s := by
  rcases instrOf_unassignedInvalid h with hi | hi | hi | hi <;> rw [hi] <;> rfl

/-- Settles O35: each of these opcodes is its whole instruction, one of four that only stop. -/
theorem unassignedInvalidStops : Obligations.UnassignedInvalidStops :=
  ⟨fun ins h => ⟨fetchedAs_instrOf (operandCount_invalidCategory ins).symm,
      fun s => exec_stopsIn (exec_unassignedInvalid h s)⟩,
    fun _ => exec_stopsIn rfl, fun _ _ => exec_stopsIn rfl, fun _ _ => exec_stopsIn rfl,
    fun _ _ => exec_stopsIn rfl⟩

theorem operandCount_unassignedCategory (ins : Nibble) {cat : Nibble} (h : 4 ≤ cat.toNat) :
    operandCount (nibblePair ins cat) = 0 := by
  revert ins cat; decide

/-- The opcodes of the unassigned categories are their two stop rows (R68, R88). -/
theorem instrOf_unassignedCategory (ins : Nibble) {cat : Nibble} (h : 4 ≤ cat.toNat) :
    instrOf (nibblePair ins cat) [] = .stopInvalidCategory4 ins (cat.extractLsb' 0 2) ∨
    instrOf (nibblePair ins cat) [] = .stopInvalidCategory8 ins (cat.extractLsb' 0 3) := by
  revert ins cat; decide

theorem exec_unassignedCategory (ins : Nibble) {cat : Nibble} (h : 4 ≤ cat.toNat) (s : State) :
    exec (instrOf (nibblePair ins cat) []) s = stopWith .invalidInstructionCategory s := by
  rcases instrOf_unassignedCategory ins h with hi | hi <;> rw [hi] <;> rfl

/-- Settles O36: each of these opcodes is its whole instruction, one of two that only stop. -/
theorem unassignedCategoryStops : Obligations.UnassignedCategoryStops :=
  ⟨fun ins _ h => ⟨fetchedAs_instrOf (operandCount_unassignedCategory ins h).symm,
      fun s => exec_stopsIn (exec_unassignedCategory ins h s)⟩,
    fun _ _ _ => exec_stopsIn rfl, fun _ _ _ => exec_stopsIn rfl⟩

end Sys2Proof.Machine

/-! PROOFS. The Arithmetic category: the stops of its unassigned numbers (R98), and the result, the faults and the
frame of each of its instructions (R90 to R97, R100). -/

namespace Sys2Proof.Machine

/-! The unassigned numbers (R98). -/

theorem operandCount_unassignedArithmetic {ins : Nibble} (h : 8 ≤ ins.toNat) :
    operandCount (nibblePair ins 0x1) = 0 := by
  revert ins; decide

/-- The unassigned numbers of the Arithmetic category are its one stop row (R67, R98). -/
theorem instrOf_unassignedArithmetic {ins : Nibble} (h : 8 ≤ ins.toNat) :
    instrOf (nibblePair ins 0x1) [] = .stopInvalidArithmetic8 (ins.extractLsb' 0 3) := by
  revert ins; decide

theorem exec_unassignedArithmetic {ins : Nibble} (h : 8 ≤ ins.toNat) (s : State) :
    exec (instrOf (nibblePair ins 0x1) []) s = stopWith .invalidArithmeticInstruction s := by
  rw [instrOf_unassignedArithmetic h]
  rfl

/-- Settles O37: each of these opcodes is its whole instruction, the one that only stops. -/
theorem unassignedArithmeticStops : Obligations.UnassignedArithmeticStops :=
  ⟨fun _ h => ⟨fetchedAs_instrOf (operandCount_unassignedArithmetic h).symm,
      fun s => exec_stopsIn (exec_unassignedArithmetic h s)⟩,
    fun _ _ => exec_stopsIn rfl⟩

/-! What the instructions share: their bytes are fetched (R82), their fields are validated (R83), and the effect
writes one register. -/

/-- Bytes of the length their opcode calls for are fetched as the instruction the decoder gives for them. -/
theorem fetchedAs_of_instrOf {op : Byte} {ops : List Byte} {i : Instr}
    (hlen : ops.length = operandCount op) (hinstr : instrOf op ops = i) : FetchedAs (op :: ops) i :=
  hinstr ▸ fetchedAs_instrOf hlen

/-- Every instruction raises the first bad one of the fields it uses, with nothing else changed. -/
theorem raisesFirstInvalid_usedFields (i : Instr) : RaisesFirstInvalid i (usedFields i) :=
  fun s _ h => ⟨s.latch _, exec_raises h s, faultsIn_latch s _⟩

/-- An instruction that completes by writing one register leaves the value there, and all else as it was. `Q` is
what a statement says of the value. -/
theorem completes_setReg {i : Instr} {s : State} {j : RegIndex} {v : Word} {Q : State → Prop}
    (h : exec i s = complete (s.setReg j v)) (hQ : ∀ t : State, t.reg j = v → Q t) :
    ∃ t, exec i s = .next t ∧ Q t ∧ Continues s t ∧ KeepsRegs s t [j] ∧ KeepsMem s t :=
  ⟨_, h, hQ _ (by rw [respond_reg, reg_setReg_same]), ⟨rfl, rfl⟩,
    keepsRegs_setReg (keepsRegs_refl s _) (List.mem_singleton.2 rfl) v, keepsMem_setReg s j v⟩

/-! ADD, SUB and MUL (R90 to R92). -/

/-- Settles O40: the word sum is the sum modulo 2^64. -/
theorem addGivesTheSum : Obligations.AddGivesTheSum :=
  ⟨fun a b o u => fetchedAs_of_instrOf rfl (instrOf_add a b o u),
    fun a b o => raisesFirstInvalid_usedFields (.add a b o),
    fun s ia ib io => completes_setReg (exec_add s ia ib io) fun _ hv => by
      rw [hv, BitVec.toNat_add]⟩

/-- The residue of the exact difference, which may be negative, is what the word holds (R91). -/
theorem toNat_sub_eq_emod (v w : Word) :
    ((v - w).toNat : Int) = ((v.toNat : Int) - (w.toNat : Int)) % 2 ^ 64 := by
  rw [BitVec.toNat_sub]
  omega

/-- Settles O41: the word difference is the exact difference modulo 2^64. -/
theorem subGivesTheDifference : Obligations.SubGivesTheDifference :=
  ⟨fun a b o u => fetchedAs_of_instrOf rfl (instrOf_sub a b o u),
    fun a b o => raisesFirstInvalid_usedFields (.sub a b o),
    fun s ia ib io => completes_setReg (exec_sub s ia ib io) fun _ hv => by
      rw [hv, toNat_sub_eq_emod]⟩

theorem exec_mul (s : State) (ia ib io : RegIndex) :
    exec (.mul (fieldOf ia) (fieldOf ib) (fieldOf io)) s
      = complete (s.setReg io (s.reg ia * s.reg ib)) :=
  withRegs3_fieldOf s ia ib io _

/-- Settles O42: the word product is the product modulo 2^64. -/
theorem mulGivesTheLowProduct : Obligations.MulGivesTheLowProduct :=
  ⟨fun a b o u => fetchedAs_of_instrOf rfl (instrOf_mul a b o u),
    fun a b o => raisesFirstInvalid_usedFields (.mul a b o),
    fun s ia ib io => completes_setReg (exec_mul s ia ib io) fun _ hv => by
      rw [hv, BitVec.toNat_mul]⟩

/-! DIVMOD (R93, R100). -/

theorem divmodResult_zero (va : Word) : divmodResult va 0 = (0, 0) := if_pos rfl

theorem divmodResult_of_ne_zero {vb : Word} (h : vb ≠ 0) (va : Word) :
    divmodResult va vb = (va / vb, va % vb) :=
  if_neg h

theorem divmodResult_quotient_toNat (va vb : Word) :
    (divmodResult va vb).1.toNat = if vb.toNat = 0 then 0 else va.toNat / vb.toNat := by
  by_cases h : vb = 0
  · rw [h, divmodResult_zero]
    rfl
  · have hnat : vb.toNat ≠ 0 := BitVec.toNat_ne.1 h
    rw [divmodResult_of_ne_zero h, if_neg hnat, BitVec.toNat_udiv]

theorem divmodResult_remainder_toNat (va vb : Word) :
    (divmodResult va vb).2.toNat = if vb.toNat = 0 then 0 else va.toNat % vb.toNat := by
  by_cases h : vb = 0
  · rw [h, divmodResult_zero]
    rfl
  · have hnat : vb.toNat ≠ 0 := BitVec.toNat_ne.1 h
    rw [divmodResult_of_ne_zero h, if_neg hnat, BitVec.toNat_umod]

theorem exec_divmod (s : State) (ia ib io ir : RegIndex) :
    exec (.divmod (fieldOf ia) (fieldOf ib) (fieldOf io) (fieldOf ir)) s
      = complete ((s.setReg io (divmodResult (s.reg ia) (s.reg ib)).1).setReg ir
          (divmodResult (s.reg ia) (s.reg ib)).2) :=
  withRegs4_fieldOf s ia ib io ir _

/-- DIVMOD of four registers leaves the remainder, which is written last, and the quotient unless the remainder
overwrote it (D4). -/
theorem divmod_completes (s : State) (ia ib io ir : RegIndex) :
    ∃ t, exec (.divmod (fieldOf ia) (fieldOf ib) (fieldOf io) (fieldOf ir)) s = .next t ∧
      (io ≠ ir → t.reg io = (divmodResult (s.reg ia) (s.reg ib)).1) ∧
      t.reg ir = (divmodResult (s.reg ia) (s.reg ib)).2 ∧
      Continues s t ∧ KeepsRegs s t [io, ir] ∧ KeepsMem s t := by
  refine ⟨_, exec_divmod s ia ib io ir, fun hne => ?_, ?_, ⟨rfl, rfl⟩,
    keepsRegs_setReg (keepsRegs_setReg (keepsRegs_refl s _) (by simp) _) (by simp) _,
    keepsMem_of_eq rfl rfl⟩
  · rw [respond_reg, reg_setReg_other _ _ _ _ hne.symm, reg_setReg_same]
  · rw [respond_reg, reg_setReg_same]

/-- Settles O43: the two written words are the quotient and the remainder as numbers. -/
theorem divmodGivesQuotientAndRemainder : Obligations.DivmodGivesQuotientAndRemainder := by
  refine ⟨fun a b o r => fetchedAs_of_instrOf rfl (instrOf_divmod a b o r),
    fun a b o r => raisesFirstInvalid_usedFields (.divmod a b o r), fun s ia ib io ir => ?_⟩
  obtain ⟨t, ht, hquotient, hremainder, hframe⟩ := divmod_completes s ia ib io ir
  refine ⟨t, ht, fun hne => ?_, ?_, hframe⟩
  · rw [hquotient hne, divmodResult_quotient_toNat]
  · rw [hremainder, divmodResult_remainder_toNat]

/-- Each row of the table holds its own quotient and remainder (R100). -/
theorem divmodResult_corner {va vb q m : Word} (h : (va, vb, q, m) ∈ divmodCorners) :
    divmodResult va vb = (q, m) := by
  have hrows : ∀ row ∈ divmodCorners, divmodResult row.1 row.2.1 = row.2.2 := by
    simp only [divmodCorners, List.forall_mem_cons]
    exact ⟨rfl, rfl, rfl, rfl, rfl, rfl, rfl, rfl, rfl, rfl, rfl, nofun⟩
  exact hrows _ h

/-- Settles O44: what DIVMOD writes is computed from the two operands alone, so it is checked row by row. -/
theorem divmodCorners_hold : Obligations.DivmodCorners := by
  rintro _ _ q m hrow s ia ib io ir rfl rfl hne
  obtain ⟨t, ht, hquotient, hremainder, hcontinues, -, -⟩ := divmod_completes s ia ib io ir
  rw [divmodResult_corner hrow] at hquotient hremainder
  exact ⟨t, ht, hquotient hne, hremainder, hcontinues⟩

/-! The bitwise operations (R94 to R97). -/

theorem exec_and (s : State) (ia ib io : RegIndex) :
    exec (.and (fieldOf ia) (fieldOf ib) (fieldOf io)) s
      = complete (s.setReg io (s.reg ia &&& s.reg ib)) :=
  withRegs3_fieldOf s ia ib io _

theorem exec_or (s : State) (ia ib io : RegIndex) :
    exec (.or (fieldOf ia) (fieldOf ib) (fieldOf io)) s
      = complete (s.setReg io (s.reg ia ||| s.reg ib)) :=
  withRegs3_fieldOf s ia ib io _

theorem exec_xor (s : State) (ia ib io : RegIndex) :
    exec (.xor (fieldOf ia) (fieldOf ib) (fieldOf io)) s
      = complete (s.setReg io (s.reg ia ^^^ s.reg ib)) :=
  withRegs3_fieldOf s ia ib io _

theorem exec_not (s : State) (ia io : RegIndex) :
    exec (.not (fieldOf ia) (fieldOf io)) s = complete (s.setReg io (~~~ s.reg ia)) :=
  withRegs2_fieldOf s ia io _

/-- Settles O45: the word AND is the AND of each bit. -/
theorem andIsBitwise : Obligations.AndIsBitwise :=
  ⟨fun a b o u => fetchedAs_of_instrOf rfl (instrOf_and a b o u),
    fun a b o => raisesFirstInvalid_usedFields (.and a b o),
    fun s ia ib io => completes_setReg (exec_and s ia ib io) fun _ hv _ => by
      rw [hv, BitVec.getLsbD_and]⟩

/-- Settles O46: the word OR is the OR of each bit. -/
theorem orIsBitwise : Obligations.OrIsBitwise :=
  ⟨fun a b o u => fetchedAs_of_instrOf rfl (instrOf_or a b o u),
    fun a b o => raisesFirstInvalid_usedFields (.or a b o),
    fun s ia ib io => completes_setReg (exec_or s ia ib io) fun _ hv _ => by
      rw [hv, BitVec.getLsbD_or]⟩

/-- Settles O47: the word exclusive OR is the exclusive OR of each bit. -/
theorem xorIsBitwise : Obligations.XorIsBitwise :=
  ⟨fun a b o u => fetchedAs_of_instrOf rfl (instrOf_xor a b o u),
    fun a b o => raisesFirstInvalid_usedFields (.xor a b o),
    fun s ia ib io => completes_setReg (exec_xor s ia ib io) fun _ hv _ => by
      rw [hv, BitVec.getLsbD_xor]⟩

/-- Settles O48: the word complement is the complement of each of the 64 bits. -/
theorem notComplements : Obligations.NotComplements :=
  ⟨fun a o => fetchedAs_of_instrOf rfl (instrOf_not a o),
    fun a o => raisesFirstInvalid_usedFields (.not a o),
    fun s ia io => completes_setReg (exec_not s ia io) fun _ hv k hk => by
      simp [hv, hk]⟩

end Sys2Proof.Machine

/-! PROOFS. The Memory category: the stops of its unassigned numbers (R116), the result, the faults and the frame of
each of its instructions (R110 to R115), and the round trips through memory of WRITE and READ and of PUSH and POP. -/

namespace Sys2Proof.Machine

/-! The unassigned numbers (R116). -/

theorem operandCount_unassignedMemory {ins : Nibble} (h : 6 ≤ ins.toNat) :
    operandCount (nibblePair ins 0x2) = 0 := by
  revert ins; decide

/-- The unassigned numbers of the Memory category are its two stop rows (R67, R116). -/
theorem instrOf_unassignedMemory {ins : Nibble} (h : 6 ≤ ins.toNat) :
    instrOf (nibblePair ins 0x2) [] = .stopInvalidMemory6 (ins.extractLsb' 0 1) ∨
    instrOf (nibblePair ins 0x2) [] = .stopInvalidMemory8 (ins.extractLsb' 0 3) := by
  revert ins; decide

theorem exec_unassignedMemory {ins : Nibble} (h : 6 ≤ ins.toNat) (s : State) :
    exec (instrOf (nibblePair ins 0x2) []) s = stopWith .invalidMemoryInstruction s := by
  rcases instrOf_unassignedMemory h with hi | hi <;> rw [hi] <;> rfl

/-- Settles O38: each of these opcodes is its whole instruction, one of two that only stop. -/
theorem unassignedMemoryStops : Obligations.UnassignedMemoryStops :=
  ⟨fun _ h => ⟨fetchedAs_instrOf (operandCount_unassignedMemory h).symm,
      fun s => exec_stopsIn (exec_unassignedMemory h s)⟩,
    fun _ _ => exec_stopsIn rfl, fun _ _ => exec_stopsIn rfl⟩

/-! COPY and LOAD (R110, R111). -/

/-- Settles O50: COPY ends by writing x[b]. -/
theorem copyMovesARegister : Obligations.CopyMovesARegister :=
  ⟨fun a b => fetchedAs_of_instrOf rfl (instrOf_copy a b),
    fun a b => raisesFirstInvalid_usedFields (.copy a b),
    fun s ia ib => completes_setReg (exec_copy s ia ib) fun _ hv => hv⟩

/-- A value is its 8 bytes (R45, R46). -/
theorem word_eq_of_bytes_eq {v w : Word} (h : ∀ k, k < 8 → v.extractLsb' (8 * k) 8 = w.extractLsb' (8 * k) 8) :
    v = w := by
  have hbytes : bytesOfWord v = bytesOfWord w :=
    List.map_congr_left fun k hk => h k (List.mem_range.1 hk)
  rw [← wordOfBytes_bytesOfWord v, hbytes, wordOfBytes_bytesOfWord]

/-- Settles O51: the 8 bytes after the operand byte are the immediate's own, and LOAD ends by writing x[a]. -/
theorem loadWritesTheImmediate : Obligations.LoadWritesTheImmediate := by
  refine ⟨fun a u imm bytes hlen hbytes => fetchedAs_of_instrOf (congrArg (· + 1) hlen) ?_,
    fun a imm => raisesFirstInvalid_usedFields (.load a imm),
    fun s ia imm => completes_setReg (exec_load s ia imm) fun _ hv => hv⟩
  have himm : wordOfBytes bytes = imm := word_eq_of_bytes_eq fun k hk => by
    rw [extractLsb'_wordOfBytes hlen hk, hbytes k hk]
  rw [instrOf_load, himm]

/-! READ (R112). -/

section
variable {s : State} (ia ib : RegIndex) {v : Word} {f : Fault}

theorem exec_read_of_ok (h : s.memRead8 (s.reg ia) = .ok v) :
    exec (.read (fieldOf ia) (fieldOf ib)) s = complete (s.setReg ib v) := by
  simp only [exec, execRead, withRegs2_fieldOf, indirectAddress, h]

theorem exec_read_of_error (h : s.memRead8 (s.reg ia) = .error f) :
    exec (.read (fieldOf ia) (fieldOf ib)) s = raise f s := by
  simp only [exec, execRead, withRegs2_fieldOf, indirectAddress, h]

end

/-- Settles O52: READ is the 8-byte read, whose value it writes to x[b] and whose fault it raises. -/
theorem readLoadsEightBytes : Obligations.ReadLoadsEightBytes := by
  refine ⟨fun a b => fetchedAs_of_instrOf rfl (instrOf_read a b),
    fun a b => raisesFirstInvalid_usedFields (.read a b), fun s ia ib => ?_⟩
  obtain ⟨hinside, houtside⟩ := eightByteRead s (s.reg ia)
  refine ⟨fun hin => ?_, fun k hk hbefore hmissing => ?_⟩
  · obtain ⟨v, hread, hbytes⟩ := hinside hin
    refine completes_setReg (exec_read_of_ok ia ib hread) fun t hv k hk => ?_
    rw [hv, hbytes k hk]
  · exact ⟨_, exec_read_of_error ia ib (houtside k hk hbefore hmissing), faultsIn_latch s _⟩

/-! The end of WRITE and PUSH (R113, R114). -/

section
variable {s : State} {addr : Word}

/-- A last act that stores 8 existing bytes completes with the value in them. -/
theorem finishStore_completes (h : accessInBounds s addr) (v : Word) :
    ∃ t, finishStore (s.memWrite8 addr v) = .next t ∧
      (∀ k, k < 8 → Memory.read t.mem (addr.toNat + k) = v.extractLsb' (8 * k) 8) ∧
      Continues s t ∧ KeepsRegs s t [] ∧ KeepsMemOutside s t addr.toNat 8 := by
  obtain ⟨hinside, -⟩ := eightByteWrite s addr v
  obtain ⟨t, hwrite, hbytes, hmem, hregs, hfault⟩ := hinside h
  exact ⟨t.respond .continues, by rw [hwrite]; rfl, hbytes, ⟨rfl, hfault⟩, hregs, hmem⟩

/-- A last act that stores past the end of memory raises at the first missing byte, with those before it
written (R147). -/
theorem finishStore_latches {k : Nat} (hk : k < 8) (hbefore : ∀ j, j < k → addr.toNat + j < s.memSize.toNat)
    (hmissing : s.memSize.toNat ≤ addr.toNat + k) (v : Word) :
    ∃ t, finishStore (s.memWrite8 addr v) = .next t ∧
      Latches t (.outOfBoundsAddress (BitVec.ofNat 64 (addr.toNat + k))) ∧
      (∀ j, j < k → Memory.read t.mem (addr.toNat + j) = v.extractLsb' (8 * j) 8) ∧
      KeepsRegs s t [] ∧ KeepsMemOutside s t addr.toNat k := by
  obtain ⟨-, houtside⟩ := eightByteWrite s addr v
  obtain ⟨t, hwrite, hbytes, hmem, hregs, -⟩ := houtside k hk hbefore hmissing
  exact ⟨t.latch _, by rw [hwrite]; rfl, ⟨rfl, rfl⟩, hbytes, hregs, hmem⟩

end

/-- Settles O53: WRITE is the store at x[b]. -/
theorem writeStoresEightBytes : Obligations.WriteStoresEightBytes := by
  refine ⟨fun a b => fetchedAs_of_instrOf rfl (instrOf_write a b),
    fun a b => raisesFirstInvalid_usedFields (.write a b), fun s ia ib => ?_⟩
  rw [exec_write]
  exact ⟨fun hin => finishStore_completes hin _,
    fun _ hk hbefore hmissing => finishStore_latches hk hbefore hmissing _⟩

/-- Settles O29: what WRITE left in the 8 bytes is what READ takes from them. -/
theorem writeThenReadRoundTrips : Obligations.WriteThenReadRoundTrips := by
  intro s ia ib hin
  obtain ⟨-, -, hwrite⟩ := writeStoresEightBytes
  obtain ⟨t, ht, hstored, hcontinues, -, hsize, -⟩ := (hwrite s ia ib).1 hin
  refine ⟨t, ht, hcontinues, fun u ic io humem husize huaddr => ?_⟩
  obtain ⟨-, -, hread⟩ := readLoadsEightBytes
  have huin : accessInBounds u (u.reg ic) := by rwa [accessInBounds, huaddr, husize, hsize]
  obtain ⟨u', hu', hloaded, hcontinues', -⟩ := (hread u ic io).1 huin
  refine ⟨u', hu', hcontinues', word_eq_of_bytes_eq fun k hk => ?_⟩
  rw [hloaded k hk, huaddr, humem, hstored k hk]

/-! PUSH (R114). -/

/-- What keeps every register of a state in which one was set keeps the others of the state before. -/
theorem keepsRegs_of_setReg {s t : State} {i : RegIndex} {v : Word} (h : KeepsRegs (s.setReg i v) t []) :
    t.reg i = v ∧ KeepsRegs s t [i] := by
  refine ⟨by rw [h i List.not_mem_nil, reg_setReg_same], fun j hj => ?_⟩
  rw [h j List.not_mem_nil, reg_setReg_other s i j v fun hij => hj (by simp [hij])]

/-- Settles O54: PUSH sets sp and then is the store there, so all but sp is as the store leaves it. -/
theorem pushStoresBelowSp : Obligations.PushStoresBelowSp := by
  refine ⟨fun a u => fetchedAs_of_instrOf rfl (instrOf_push a u),
    fun a => raisesFirstInvalid_usedFields (.push a), ?_⟩
  rintro s ia _ _ rfl rfl
  rw [exec_push]
  refine ⟨fun hin => ?_, fun k hk hbefore hmissing => ?_⟩
  · obtain ⟨t, ht, hbytes, hcontinues, hregs, hmem⟩ :=
      finishStore_completes (s := s.setReg spReg (pushAddress s)) hin _
    obtain ⟨hsp, hkeeps⟩ := keepsRegs_of_setReg hregs
    exact ⟨t, ht, hsp, hbytes, hcontinues, hkeeps, hmem⟩
  · obtain ⟨t, ht, hlatch, hbytes, hregs, hmem⟩ :=
      finishStore_latches (s := s.setReg spReg (pushAddress s)) hk hbefore hmissing _
    obtain ⟨hsp, hkeeps⟩ := keepsRegs_of_setReg hregs
    exact ⟨t, ht, hsp, hlatch, hbytes, hkeeps, hmem⟩

/-! POP (R115). -/

/-- The state after a POP of value v, before its answer: x[a] is written, and then sp is moved up from what it holds (D5). -/
def popped (s : State) (ia : RegIndex) (v : Word) : State :=
  (s.setReg ia v).setReg spReg ((s.setReg ia v).reg spReg + 8)

section
variable {s : State} (ia : RegIndex) {v : Word} {f : Fault}

theorem exec_pop_of_ok (h : s.memRead8 (s.reg spReg) = .ok v) :
    exec (.pop (fieldOf ia)) s = complete (popped s ia v) := by
  simp only [exec, execPop, withReg_fieldOf, popAddress, h, popped]

theorem exec_pop_of_error (h : s.memRead8 (s.reg spReg) = .error f) :
    exec (.pop (fieldOf ia)) s = raise f s := by
  simp only [exec, execPop, withReg_fieldOf, popAddress, h]

end

theorem popped_sp (s : State) (ia : RegIndex) (v : Word) :
    (popped s ia v).reg spReg = (if ia = spReg then v else s.reg spReg) + 8 := by
  rw [popped, reg_setReg_same, reg_setReg]

theorem popped_dest (s : State) {ia : RegIndex} (h : ia ≠ spReg) (v : Word) :
    (popped s ia v).reg ia = v := by
  rw [popped, reg_setReg_other _ _ _ _ h.symm, reg_setReg_same]

theorem keepsRegs_popped (s : State) (ia : RegIndex) (v : Word) :
    KeepsRegs s (popped s ia v) [ia, spReg] :=
  keepsRegs_setReg (keepsRegs_setReg (keepsRegs_refl s _) (by simp) _) (by simp) _

/-- Settles O55: POP is the 8-byte read at sp, whose value it writes before sp moves and whose fault it raises. -/
theorem popLoadsFromSp : Obligations.PopLoadsFromSp := by
  refine ⟨fun a u => fetchedAs_of_instrOf rfl (instrOf_pop a u),
    fun a => raisesFirstInvalid_usedFields (.pop a), fun s ia => ?_⟩
  obtain ⟨hinside, houtside⟩ := eightByteRead s (s.reg spReg)
  refine ⟨fun hin => ?_, fun k hk hbefore hmissing => ?_⟩
  · obtain ⟨v, hread, hbytes⟩ := hinside hin
    refine ⟨(popped s ia v).respond .continues, v, exec_pop_of_ok ia hread,
      hbytes, fun hne => ⟨popped_dest s hne v, ?_⟩, fun heq => ?_, ⟨rfl, rfl⟩,
      keepsRegs_popped s ia v, keepsMem_of_eq rfl rfl⟩
    · rw [respond_reg, popped_sp, if_neg hne]
    · rw [respond_reg, popped_sp, if_pos heq]
  · exact ⟨_, exec_pop_of_error ia (houtside k hk hbefore hmissing), faultsIn_latch s _⟩

/-! PUSH and then POP (R114, R115). -/

theorem step_push {s : State} {ia : RegIndex} {u : Nibble} (hs : s.fault = none)
    (hcode : CodeAt s [0x42, nibblePair u (fieldOf ia)]) :
    step s = exec (.push (fieldOf ia)) (afterFetch s 2) := by
  rw [step_codeAt hs hcode rfl, instrOf_push]
  rfl

theorem step_pop {s : State} {ia : RegIndex} {u : Nibble} (hs : s.fault = none)
    (hcode : CodeAt s [0x52, nibblePair u (fieldOf ia)]) :
    step s = exec (.pop (fieldOf ia)) (afterFetch s 2) := by
  rw [step_codeAt hs hcode rfl, instrOf_pop]
  rfl

/-- Code apart from the range that may have changed still stands at x[1]. -/
theorem codeAt_of_keepsMemOutside {s t : State} {bytes : List Byte} {start n : Nat} (h : CodeAt s bytes)
    (hip : t.reg ipReg = s.reg ipReg) (hmem : KeepsMemOutside s t start n)
    (hapart : start + n ≤ (s.reg ipReg).toNat ∨ (s.reg ipReg).toNat + bytes.length ≤ start) :
    CodeAt t bytes := by
  intro k hk
  obtain ⟨hbound, hread⟩ := h k hk
  obtain ⟨hsize, houtside⟩ := hmem
  rw [hip, hsize, houtside _ (by omega)]
  exact ⟨hbound, hread⟩

/-- POP into the register that PUSH stored puts back every register but x[1], if only x[1] has changed in between. -/
theorem pop_restores_push {s t u : State} {ia : RegIndex} (hia : ia ≠ ipReg)
    (hslot : accessInBounds s (s.reg spReg - 8)) (hpush : exec (.push (fieldOf ia)) s = .next t)
    (hmem : u.mem = t.mem) (hsize : u.memSize = t.memSize) (hregs : KeepsRegs t u [ipReg]) :
    ∃ u', exec (.pop (fieldOf ia)) u = .next u' ∧ Continues u u' ∧ u'.reg ipReg = u.reg ipReg ∧
      KeepsRegs s u' [ipReg] ∧ KeepsMem u u' := by
  obtain ⟨-, -, hpushes⟩ := pushStoresBelowSp
  obtain ⟨t', ht', hsp, hstored, -, hkept, hsize', -⟩ := (hpushes s ia _ _ rfl rfl).1 hslot
  obtain rfl : t' = t := by simpa [ht'] using hpush
  have husp : u.reg spReg = s.reg spReg - 8 := by rw [hregs spReg (by decide), hsp]
  obtain ⟨-, -, hpops⟩ := popLoadsFromSp
  obtain ⟨u', v, hu', hloaded, hother, hself, hcontinues, hkept', hmem'⟩ :=
    (hpops u ia).1 (by rwa [accessInBounds, husp, hsize, hsize'])
  have hv : v = if ia = spReg then s.reg spReg - 8 else s.reg ia := word_eq_of_bytes_eq fun k hk => by
    rw [hloaded k hk, husp, hmem, hstored k hk]
  have hsp' : u'.reg spReg = s.reg spReg := by
    by_cases h : ia = spReg
    · rw [hself h, hv, if_pos h, BitVec.sub_add_cancel]
    · rw [(hother h).2, husp, BitVec.sub_add_cancel]
  have hip : ipReg ∉ [ia, spReg] := by simpa [hia.symm] using (by decide : ipReg ≠ spReg)
  refine ⟨u', hu', hcontinues, hkept' ipReg hip, fun j hj => ?_, hmem'⟩
  by_cases hjsp : j = spReg
  · rw [hjsp, hsp']
  by_cases hjia : j = ia
  · rw [hjia] at hjsp ⊢
    rw [(hother hjsp).1, hv, if_neg hjsp]
  · rw [hkept' j (by simp [hjia, hjsp]), hregs j hj, hkept j (by simp [hjsp])]

/-- Where r0 already holds 0, its zeroing changes nothing, and a fetch moves x[1] only (R23). -/
theorem keepsRegs_afterFetch_of_zero {s : State} (h : s.reg zeroReg = 0) (n : Nat) :
    KeepsRegs s (afterFetch s n) [ipReg] := by
  intro j hj
  rw [List.mem_singleton] at hj
  by_cases hzero : j = zeroReg
  · rw [hzero, afterFetch_zero, h]
  · exact afterFetch_other s n hj hzero

/-- The stack slot below an sp of at least 8 is that many bytes down, also after a fetch. -/
theorem afterFetch_slot_toNat {s : State} (n : Nat) (h : 8 ≤ (s.reg spReg).toNat) :
    ((afterFetch s n).reg spReg - 8).toNat = (s.reg spReg).toNat - 8 := by
  rw [afterFetch_other s n (by decide) (by decide)]
  bv_omega

/-- Settles O56: the POP is fetched after the PUSH because the slot is apart from its bytes, and only x[1] moves
between the two effects, since r0 is zero already. -/
theorem pushThenPopRestores : Obligations.PushThenPopRestores := by
  intro s ia u v hia hs hcode hlow hhigh hapart
  obtain ⟨-, -, hpushes⟩ := pushStoresBelowSp
  have hcodePush : CodeAt s [0x42, nibblePair u (fieldOf ia)] :=
    codeAt_append_left (ys := [0x52, nibblePair v (fieldOf ia)]) hcode
  have hip : ((afterFetch s 2).reg ipReg).toNat = (s.reg ipReg).toNat + 2 :=
    afterFetch_ip_toNat (codeAt_end_le hcodePush)
  have haddr := afterFetch_slot_toNat 2 hlow
  have hslot : accessInBounds (afterFetch s 2) ((afterFetch s 2).reg spReg - 8) := by
    rw [accessInBounds, haddr, afterFetch_memSize]
    omega
  obtain ⟨t, ht, -, -, ⟨-, hfault⟩, hkept, hmem⟩ := (hpushes (afterFetch s 2) ia _ _ rfl rfl).1 hslot
  have htip : t.reg ipReg = (afterFetch s 2).reg ipReg := hkept ipReg (by decide)
  have hcodeFetched : CodeAt (afterFetch s 2) [0x52, nibblePair v (fieldOf ia)] :=
    codeAt_append_right (xs := [0x42, nibblePair u (fieldOf ia)]) hcode rfl rfl hip
  have hcodePop : CodeAt t [0x52, nibblePair v (fieldOf ia)] :=
    codeAt_of_keepsMemOutside hcodeFetched htip hmem <| by
      rw [hip, haddr, List.length_cons, List.length_singleton]
      omega
  have htzero : t.reg zeroReg = 0 := by rw [hkept zeroReg (by decide), afterFetch_zero]
  obtain ⟨t', ht', ⟨hresponse, hfault'⟩, hip', hrestored, hsize', hmem'⟩ :=
    pop_restores_push (u := afterFetch t 2) hia hslot ht rfl rfl (keepsRegs_afterFetch_of_zero htzero 2)
  have hregs : KeepsRegs s t' [zeroReg, ipReg] := fun j hj => by
    rw [hrestored j fun h => hj (List.mem_cons_of_mem _ h), keepsRegs_afterFetch s 2 j hj]
  refine ⟨t, t', (step_push hs hcodePush).trans ht, (step_pop (hfault.trans hs) hcodePop).trans ht',
    ⟨hresponse, hfault'.trans hfault⟩, fun hzero => ?_, ?_, ?_, ?_, hregs, ?_⟩
  · exact hregs ia (by simp [hzero, hia])
  · rw [hrestored zeroReg (by decide), afterFetch_zero]
  · exact hregs spReg (by decide)
  · rw [hip', afterFetch_ip, htip, afterFetch_ip, BitVec.add_assoc]
    rfl
  · obtain ⟨hsize, houtside⟩ := hmem
    exact ⟨hsize'.trans hsize, fun a ha => (hmem' a).trans (houtside a (by rwa [haddr]))⟩

end Sys2Proof.Machine

/-! PROOFS. The ControlFlow category: the stops of HALT and of its unassigned numbers (R130, R132), and the result,
the faults and the frame of CALL (R131). -/

namespace Sys2Proof.Machine

/-! The unassigned numbers (R132). -/

theorem operandCount_unassignedControlFlow {ins : Nibble} (h : 2 ≤ ins.toNat) :
    operandCount (nibblePair ins 0x3) = 0 := by
  revert ins; decide

/-- The unassigned numbers of the ControlFlow category are its three stop rows (R67, R132). -/
theorem instrOf_unassignedControlFlow {ins : Nibble} (h : 2 ≤ ins.toNat) :
    instrOf (nibblePair ins 0x3) [] = .stopInvalidControlFlow2 (ins.extractLsb' 0 1) ∨
    instrOf (nibblePair ins 0x3) [] = .stopInvalidControlFlow4 (ins.extractLsb' 0 2) ∨
    instrOf (nibblePair ins 0x3) [] = .stopInvalidControlFlow8 (ins.extractLsb' 0 3) := by
  revert ins; decide

theorem exec_unassignedControlFlow {ins : Nibble} (h : 2 ≤ ins.toNat) (s : State) :
    exec (instrOf (nibblePair ins 0x3) []) s = stopWith .invalidControlFlowInstruction s := by
  rcases instrOf_unassignedControlFlow h with hi | hi | hi <;> rw [hi] <;> rfl

/-- Settles O39: each of these opcodes is its whole instruction, one of three that only stop. -/
theorem unassignedControlFlowStops : Obligations.UnassignedControlFlowStops :=
  ⟨fun _ h => ⟨fetchedAs_instrOf (operandCount_unassignedControlFlow h).symm,
      fun s => exec_stopsIn (exec_unassignedControlFlow h s)⟩,
    fun _ _ => exec_stopsIn rfl, fun _ _ => exec_stopsIn rfl, fun _ _ => exec_stopsIn rfl⟩

/-! HALT (R130). -/

/-- Settles O57: the byte 0x03 calls for no operand bytes, and HALT only stops. -/
theorem haltStops : Obligations.HaltStops :=
  ⟨fetchedAs_instrOf (op := 0x03) (ops := []) rfl, fun _ => exec_stopsIn rfl⟩

/-! CALL (R131). -/

/-- CALL writes ra and then reads its target, which for CALL of ra is the address just written (D4). -/
theorem exec_call (s : State) (ia : RegIndex) :
    exec (.call (fieldOf ia)) s
      = complete ((s.setReg raReg (s.reg ipReg)).setReg ipReg
          (if ia = raReg then s.reg ipReg else s.reg ia)) := by
  have htarget : (s.setReg raReg (s.reg ipReg)).reg ia = if ia = raReg then s.reg ipReg else s.reg ia := by
    simp only [reg_setReg, eq_comm]
  simp only [exec, execCall, withReg_fieldOf, htarget]

/-- Settles O58: CALL ends by writing ra and then x[1], which are two registers, so ra keeps the return address. -/
theorem callSavesTheReturnAddress : Obligations.CallSavesTheReturnAddress := by
  refine ⟨fun a u => fetchedAs_of_instrOf rfl (instrOf_call a u),
    fun a => raisesFirstInvalid_usedFields (.call a),
    fun s ia => ⟨_, exec_call s ia, ?_, ?_, ⟨rfl, rfl⟩,
      keepsRegs_setReg (keepsRegs_setReg (keepsRegs_refl s _) (by simp) _) (by simp) _,
      keepsMem_of_eq rfl rfl⟩⟩
  · rw [respond_reg, reg_setReg_other _ _ _ _ (by decide), reg_setReg_same]
  · rw [respond_reg, reg_setReg_same]

end Sys2Proof.Machine

/-! PROOFS. The outcomes of a step: which of the events of R148 each instruction reports, the stop reason of every
opcode (R141), the cause a fault's info names (R142), and the latch, which a fault sets and a stop does not (R145,
R146). -/

namespace Sys2Proof.Machine

/-! The stop instructions (R141, R144). -/

/-- The reason an instruction stops with, for the rows of the table that only stop. -/
def stopReasonOf : Instr → Option StopReason
  | .invalid => some .invalidInstruction
  | .halt => some .halt
  | .stopInvalidInvalid1 | .stopInvalidInvalid2 _ | .stopInvalidInvalid4 _ | .stopInvalidInvalid8 _ =>
    some .invalidInvalidInstruction
  | .stopInvalidArithmetic8 _ => some .invalidArithmeticInstruction
  | .stopInvalidMemory6 _ | .stopInvalidMemory8 _ => some .invalidMemoryInstruction
  | .stopInvalidControlFlow2 _ | .stopInvalidControlFlow4 _ | .stopInvalidControlFlow8 _ =>
    some .invalidControlFlowInstruction
  | .stopInvalidCategory4 _ _ | .stopInvalidCategory8 _ _ => some .invalidInstructionCategory
  | .add _ _ _ | .sub _ _ _ | .mul _ _ _ | .divmod _ _ _ _ | .and _ _ _ | .or _ _ _ | .xor _ _ _
  | .not _ _ | .copy _ _ | .load _ _ | .read _ _ | .write _ _ | .push _ | .pop _ | .call _ => none

/-- An instruction that stops is one byte long, has no register field and no data access, and does nothing else. -/
theorem exec_of_stopReasonOf {i : Instr} {r : StopReason} (h : stopReasonOf i = some r) (s : State) :
    (encode i).length = 1 ∧ usedFields i = [] ∧ dataAddress s i = none ∧ exec i s = stopWith r s := by
  cases i with
  | invalid | halt | stopInvalidInvalid1 | stopInvalidInvalid2 | stopInvalidInvalid4 | stopInvalidInvalid8
  | stopInvalidArithmetic8 | stopInvalidMemory6 | stopInvalidMemory8 | stopInvalidControlFlow2
  | stopInvalidControlFlow4 | stopInvalidControlFlow8 | stopInvalidCategory4 | stopInvalidCategory8 =>
    cases h
    exact ⟨rfl, rfl, rfl, rfl⟩
  | add | sub | mul | divmod | and | or | xor | not | copy | load | read | write | push | pop | call =>
    cases h

/-- The opcode byte alone says whether an instruction stops. -/
theorem stopReasonOf_instrOf (op : Byte) (ops : List Byte) :
    stopReasonOf (instrOf op ops) = stopReasonOf (instrOf op []) := by
  unfold instrOf
  dsimp only
  split <;> split <;> rfl

theorem operandCount_of_stop {op : Byte} {ops : List Byte} {r : StopReason}
    (h : stopReasonOf (instrOf op ops) = some r) : operandCount op = 0 := by
  have hstops : ∀ op, (stopReasonOf (instrOf op [])).isSome → operandCount op = 0 := by decide
  rw [stopReasonOf_instrOf] at h
  exact hstops op (Option.isSome_of_eq_some h)

/-- The table of R141, checked at all 256 opcode bytes for each reason. -/
theorem stopReasonOf_opcode (op : Byte) (r : StopReason) :
    stopReasonOf (instrOf op []) = some r ↔
      (r = .halt ∧ op = 0x03) ∨ (r = .invalidInstruction ∧ op = 0x00) ∨
      (r = .invalidInstructionCategory ∧ 4 ≤ (lowNibble op).toNat) ∨
      (r = .invalidInvalidInstruction ∧ lowNibble op = 0 ∧ 1 ≤ (highNibble op).toNat) ∨
      (r = .invalidArithmeticInstruction ∧ lowNibble op = 1 ∧ 8 ≤ (highNibble op).toNat) ∨
      (r = .invalidMemoryInstruction ∧ lowNibble op = 2 ∧ 6 ≤ (highNibble op).toNat) ∨
      (r = .invalidControlFlowInstruction ∧ lowNibble op = 3 ∧ 2 ≤ (highNibble op).toNat) := by
  cases r <;> revert op <;> decide

/-! The first missing byte of a data access (R45, R46, R142). -/

theorem firstMissing_outOfBounds {s : State} {addr : Word} (h : s.memSize.toNat < addr.toNat + 8) :
    firstMissing s addr = some (max addr.toNat s.memSize.toNat) := by
  rw [firstMissing, List.find?_eq_some_iff_getElem]
  refine ⟨by simp, max addr.toNat s.memSize.toNat - addr.toNat, by simp; omega, by simp,
    fun j hj => ?_⟩
  simp
  omega

theorem firstMissing_inBounds {s : State} {addr : Word} (h : accessInBounds s addr) :
    firstMissing s addr = none := by
  unfold accessInBounds at h
  simp only [firstMissing, List.find?_eq_none, List.mem_map, List.mem_range, decide_eq_true_eq]
  omega

/-- An access with a missing byte is not in bounds. -/
theorem not_accessInBounds_of_firstMissing {s : State} {addr : Word} {k : Nat}
    (h : firstMissing s addr = some k) : ¬ accessInBounds s addr := fun hin => by
  simp [firstMissing_inBounds hin] at h

/-! What an instruction reports (R148). -/

/-- The first event of an instruction's effect, as the answer and the latch of the next state show it: the stop, the
first bad register field, the first missing byte of the data access, or none of these. -/
inductive Reports (i : Instr) (s : State) : State → Prop
  | stop (r : StopReason) (hstop : stopReasonOf i = some r) : Reports i s (s.respond (.stop r))
  | badField (n : Nibble) (hbad : firstInvalid (usedFields i) = some n) :
    Reports i s (s.latch (.invalidRegisterIndex n))
  | missing (addr : Word) (k : Nat) (u : State) (hvalid : firstInvalid (usedFields i) = none)
    (haddr : dataAddress s i = some addr) (hmissing : firstMissing s addr = some k) :
    Reports i s (u.latch (.outOfBoundsAddress (BitVec.ofNat 64 k)))
  | completes (u : State) (hvalid : firstInvalid (usedFields i) = none)
    (hin : ∀ addr, dataAddress s i = some addr → accessInBounds s addr) (hfault : u.fault = s.fault) :
    Reports i s (u.respond .continues)

/-- Fields none of which is bad all name registers (R28). -/
theorem forall_fieldOf_of_valid {fields : List Nibble} (h : firstInvalid fields = none) :
    fields.Forall fun n => ∃ i, n = fieldOf i := by
  refine List.forall_iff_forall_mem.2 fun n hn => ?_
  rcases regIndex_cases n with ⟨i, hi, -, -⟩ | ⟨-, hbad⟩
  · exact ⟨i, hi⟩
  · simpa [hbad] using List.find?_eq_none.1 h n hn

section
variable {i : Instr} {s : State} (hvalid : firstInvalid (usedFields i) = none)
include hvalid

theorem reports_complete {u : State} (hnone : dataAddress s i = none) (hexec : exec i s = complete u)
    (hfault : u.fault = s.fault) : ∃ t, exec i s = .next t ∧ Reports i s t :=
  ⟨_, hexec, .completes u hvalid (fun _ haddr => by simp [hnone] at haddr) hfault⟩

/-- READ and POP: the effect is to complete, or to raise what the read raises. -/
theorem reports_read {addr : Word} (g : Word → State) (haddr : dataAddress s i = some addr)
    (hok : ∀ v, s.memRead8 addr = .ok v → exec i s = complete (g v))
    (herror : ∀ f, s.memRead8 addr = .error f → exec i s = raise f s)
    (hfault : ∀ v, (g v).fault = s.fault) : ∃ t, exec i s = .next t ∧ Reports i s t := by
  rcases memRead8_cases s addr with ⟨hin, hread⟩ | ⟨hout, hread⟩
  · refine ⟨_, hok _ hread, .completes _ hvalid (fun a ha => ?_) (hfault _)⟩
    obtain rfl : addr = a := by simpa [haddr] using ha
    exact hin
  · exact ⟨_, herror _ hread, .missing addr _ s hvalid haddr (firstMissing_outOfBounds hout)⟩

/-- WRITE and PUSH: the effect ends with a store, in a state with the same memory. -/
theorem reports_store {u : State} {addr v : Word} (haddr : dataAddress s i = some addr)
    (hexec : exec i s = finishStore (u.memWrite8 addr v)) (hsize : u.memSize = s.memSize)
    (hfault : u.fault = s.fault) : ∃ t, exec i s = .next t ∧ Reports i s t := by
  rw [hexec]
  by_cases hin : addr.toNat + 8 ≤ s.memSize.toNat
  · rw [memWrite8_inBounds (hsize ▸ hin)]
    refine ⟨_, rfl, .completes _ hvalid (fun a ha => ?_) (by rw [memWrite8_keeps_fault, hfault])⟩
    obtain rfl : addr = a := by simpa [haddr] using ha
    exact hin
  · have hout : s.memSize.toNat < addr.toNat + 8 := by omega
    rw [memWrite8_outOfBounds (hsize ▸ hout), hsize]
    exact ⟨_, rfl, .missing addr _ _ hvalid haddr (firstMissing_outOfBounds hout)⟩

end

/-- An instruction with good fields that does not stop raises the first missing byte of its access, or completes. -/
theorem reports_effect {i : Instr} (hstop : stopReasonOf i = none)
    (hvalid : firstInvalid (usedFields i) = none) (s : State) :
    ∃ t, exec i s = .next t ∧ Reports i s t := by
  have hregs := forall_fieldOf_of_valid hvalid
  cases i with
  | add a b o | sub a b o | mul a b o | and a b o | or a b o | xor a b o =>
    obtain ⟨⟨ia, rfl⟩, ⟨ib, rfl⟩, ⟨io, rfl⟩⟩ := hregs
    exact reports_complete hvalid rfl (withRegs3_fieldOf s ia ib io _) rfl
  | divmod a b o r =>
    obtain ⟨⟨ia, rfl⟩, ⟨ib, rfl⟩, ⟨io, rfl⟩, ⟨ir, rfl⟩⟩ := hregs
    exact reports_complete hvalid rfl (exec_divmod s ia ib io ir) rfl
  | not a o =>
    obtain ⟨⟨ia, rfl⟩, ⟨io, rfl⟩⟩ := hregs
    exact reports_complete hvalid rfl (exec_not s ia io) rfl
  | copy a b =>
    obtain ⟨⟨ia, rfl⟩, ⟨ib, rfl⟩⟩ := hregs
    exact reports_complete hvalid rfl (exec_copy s ia ib) rfl
  | load a imm =>
    obtain ⟨ia, rfl⟩ := hregs
    exact reports_complete hvalid rfl (exec_load s ia imm) rfl
  | call a =>
    obtain ⟨ia, rfl⟩ := hregs
    exact reports_complete hvalid rfl (exec_call s ia) rfl
  | read a b =>
    obtain ⟨⟨ia, rfl⟩, ⟨ib, rfl⟩⟩ := hregs
    exact reports_read hvalid (s.setReg ib) (by simp [dataAddress, Except.toOption, indirectAddress])
      (fun _ => exec_read_of_ok ia ib) (fun _ => exec_read_of_error ia ib) fun _ => rfl
  | write a b =>
    obtain ⟨⟨ia, rfl⟩, ⟨ib, rfl⟩⟩ := hregs
    exact reports_store hvalid (by simp [dataAddress, Except.toOption]) (exec_write s ia ib) rfl rfl
  | push a =>
    obtain ⟨ia, rfl⟩ := hregs
    exact reports_store hvalid rfl (exec_push s ia) rfl rfl
  | pop a =>
    obtain ⟨ia, rfl⟩ := hregs
    exact reports_read hvalid (popped s ia) rfl (fun _ => exec_pop_of_ok ia)
      (fun _ => exec_pop_of_error ia) fun _ => rfl
  | invalid | halt | stopInvalidInvalid1 | stopInvalidInvalid2 | stopInvalidInvalid4 | stopInvalidInvalid8
  | stopInvalidArithmetic8 | stopInvalidMemory6 | stopInvalidMemory8 | stopInvalidControlFlow2
  | stopInvalidControlFlow4 | stopInvalidControlFlow8 | stopInvalidCategory4 | stopInvalidCategory8 =>
    cases hstop

/-- Every instruction answers a next state, which reports the first of the events of R148. -/
theorem exec_reports (i : Instr) (s : State) : ∃ t, exec i s = .next t ∧ Reports i s t := by
  cases hstop : stopReasonOf i with
  | some r =>
    obtain ⟨-, -, -, hexec⟩ := exec_of_stopReasonOf hstop s
    exact ⟨_, hexec, .stop r hstop⟩
  | none =>
    cases hbad : firstInvalid (usedFields i) with
    | some n => exact ⟨_, exec_raises hbad s, .badField n hbad⟩
    | none => exact reports_effect hstop hbad s

theorem reports_of_exec {i : Instr} {s t : State} (h : exec i s = .next t) : Reports i s t := by
  obtain ⟨u, hu, hreports⟩ := exec_reports i s
  obtain rfl : u = t := by simpa [hu] using h
  exact hreports

/-- An instruction answers a stop exactly when it is one of those that only stop. -/
theorem response_stop_iff {i : Instr} {s t : State} (h : exec i s = .next t) (r : StopReason) :
    t.response = some (.stop r) ↔ stopReasonOf i = some r := by
  constructor
  · intro hresponse
    cases reports_of_exec h with
    | stop r' hstop =>
      obtain rfl : r' = r := by simpa using hresponse
      exact hstop
    | badField | missing | completes => simp at hresponse
  · intro hstop
    obtain ⟨-, -, -, hexec⟩ := exec_of_stopReasonOf hstop s
    obtain rfl : s.respond (.stop r) = t := by simpa [stopWith, hexec] using h
    rfl

theorem exec_response_stop {i : Instr} {s t : State} {r : StopReason} (h : exec i s = .next t)
    (hresponse : t.response = some (.stop r)) : t = s.respond (.stop r) := by
  obtain ⟨-, -, -, hexec⟩ := exec_of_stopReasonOf ((response_stop_iff h r).1 hresponse) s
  simpa [stopWith, hexec] using h.symm

/-- Settles O32: the answer is a stop exactly for the instructions that only stop, and their opcodes are checked
against the table. -/
theorem stopReasonOfEveryOpcode : Obligations.StopReasonOfEveryOpcode := by
  refine ⟨rfl, fun op ops s => ?_⟩
  obtain ⟨t, ht, -⟩ := exec_reports (instrOf op ops) s
  refine ⟨t, ht, fun r hresponse => ?_, fun r => ?_⟩
  · rw [exec_response_stop ht hresponse]
    exact stopsIn_respond s r
  · rw [response_stop_iff ht, stopReasonOf_instrOf, stopReasonOf_opcode]

/-- Settles O12: the latch and the fetch come before the effect, and of the effect's events the first is the one
reported. -/
theorem priorityWithinOneStep : Obligations.PriorityWithinOneStep := by
  obtain ⟨hfetch, -⟩ := decoderIsTotal
  refine ⟨step_latched, hfetch, fun i s => ?_⟩
  obtain ⟨t, ht, hreports⟩ := exec_reports i s
  refine ⟨t, ht, ?_, fun n hn => ?_, fun hgood addr ha k hk => ?_, fun hgood hall => ?_⟩
  · rintro ⟨r, hresponse⟩
    obtain ⟨hlen, -⟩ := exec_of_stopReasonOf ((response_stop_iff ht r).1 hresponse) s
    rw [exec_response_stop ht hresponse]
    exact ⟨hlen, rfl⟩
  · obtain rfl : s.latch (.invalidRegisterIndex n) = t := by simpa [raise, exec_raises hn] using ht
    exact faultsIn_latch s _
  · cases hreports with
    | stop r hstop =>
      obtain ⟨-, -, hnone, -⟩ := exec_of_stopReasonOf hstop s
      simp [hnone] at ha
    | badField n hbad => simp [hgood] at hbad
    | missing addr' k' u _ haddr hmissing =>
      obtain rfl : addr' = addr := by simpa [haddr] using ha
      obtain rfl : k' = k := by simpa [hmissing] using hk
      exact ⟨rfl, rfl⟩
    | completes u _ hin => exact absurd (hin addr ha) (not_accessInBounds_of_firstMissing hk)
  · cases hreports with
    | stop => rfl
    | badField n hbad => simp [hgood] at hbad
    | missing addr k u _ haddr hmissing =>
      exact absurd (hall addr haddr) (not_accessInBounds_of_firstMissing hmissing)
    | completes u _ _ hfault => exact hfault

/-! What a step does (R80 to R82). -/

/-- The bytes that are fetched stand at x[1] (R82). -/
theorem codeAt_of_eq_map {s : State} {bytes : List Byte}
    (hbound : (s.reg ipReg).toNat + bytes.length ≤ s.memSize.toNat)
    (h : bytes = (List.range bytes.length).map fun k => Memory.read s.mem ((s.reg ipReg).toNat + k)) :
    CodeAt s bytes := by
  intro k hk
  refine ⟨by omega, ?_⟩
  rw [h]
  simp [List.getD, hk]

/-- With the latch clear, a step runs the instruction whose bytes stand at x[1], or raises at the byte of it where
memory ends. -/
theorem step_cases {s : State} (hs : s.fault = none) :
    (∃ op ops, CodeAt s (op :: ops) ∧ ops.length = operandCount op ∧
      step s = exec (instrOf op ops) (afterFetch s (ops.length + 1))) ∨
    ∃ k, FetchCutAt s k ∧
      step s = raise (.outOfBoundsAddress (BitVec.ofNat 64 ((s.reg ipReg).toNat + k))) (afterFetch s k) := by
  rcases fetchInstr_cases (beginStep s) with
    ⟨op, ops, hlen, hbound, hbytes, -⟩ | ⟨k, hpassed, hcut, hcount, hfetch⟩
  · rw [← hlen] at hbytes
    rw [beginStep_ip, beginStep_memSize] at hbound
    rw [beginStep_ip, beginStep_mem] at hbytes
    have hcode : CodeAt s (op :: ops) := codeAt_of_eq_map hbound hbytes
    exact .inl ⟨op, ops, hcode, hlen, step_codeAt hs hcode hlen⟩
  · rw [beginStep_ip, beginStep_memSize] at hpassed hcut
    rw [beginStep_ip, beginStep_mem] at hcount
    refine .inr ⟨k, ⟨fun j hj => by omega, hcut, fun hk => ?_⟩, ?_⟩
    · rw [lengthOf]
      omega
    · rw [step_unlatched s hs, hfetch, afterFetch_eq, BitVec.ofNat_add, BitVec.ofNat_toNat,
        BitVec.setWidth_eq, beginStep_ip]

/-- A fault that an effect latches is the one its instruction has a cause for. -/
theorem effectCause_of_exec {i : Instr} {s t : State} {f : Fault} (hs : s.fault = none)
    (h : exec i s = .next t) (hf : t.fault = some f) : EffectCause s i f := by
  cases reports_of_exec h with
  | stop => simp [hs] at hf
  | badField n hbad => exact .inl ⟨n, hbad, by simpa using hf.symm⟩
  | missing addr k u hvalid haddr hmissing =>
    exact .inr ⟨addr, k, hvalid, haddr, hmissing, by simpa using hf.symm⟩
  | completes u _ _ hfault => simp [hfault, hs] at hf

/-- Settles O33: a step raises where its fetch is cut, or in the effect of the instruction at x[1]. -/
theorem faultInfoIsTheCause : Obligations.FaultInfoIsTheCause := by
  refine ⟨fun _ => ⟨rfl, rfl⟩, fun _ => ⟨rfl, rfl⟩, fun s t f hs hstep hf => ?_⟩
  rcases step_cases hs with ⟨op, ops, hcode, hlen, heq⟩ | ⟨k, hcut, heq⟩ <;> rw [heq] at hstep
  · refine .inr ⟨op :: ops, instrOf op ops, hcode, ?_, effectCause_of_exec hs hstep hf⟩
    simpa using decode_append op ops [] hlen
  · obtain rfl : (afterFetch s k).latch _ = t := by simpa [raise] using hstep
    exact .inl ⟨k, hcut, by simpa using hf.symm⟩

/-- A step that answers a stop has fetched one byte, and has done nothing else (R144). -/
theorem step_response_stop {s t : State} {r : StopReason} (h : step s = .next t)
    (hresponse : t.response = some (.stop r)) : t = (afterFetch s 1).respond (.stop r) := by
  rcases step_cases (step_next_unlatched h) with ⟨op, ops, -, hlen, heq⟩ | ⟨k, -, heq⟩ <;> rw [heq] at h
  · rw [hlen, operandCount_of_stop ((response_stop_iff h r).1 hresponse)] at h
    exact exec_response_stop h hresponse
  · obtain rfl : (afterFetch s k).latch _ = t := by simpa [raise] using h
    simp at hresponse

/-- Settles O9: a step that stops leaves the state its fetch of one byte left, latch included. -/
theorem stopDoesNotLatch : Obligations.StopDoesNotLatch := by
  intro s t r hs hstep hresponse
  have ht := step_response_stop hstep hresponse
  have hfault : t.fault = none := by rw [ht, respond_fault, afterFetch_fault, hs]
  refine ⟨hfault, by rw [ht, respond_reg, afterFetch_ip]; rfl, fun bytes i hcode hdec => ?_⟩
  obtain ⟨hrun, -⟩ := stepRunsDecodedInstruction t bytes i hfault hcode hdec
  exact hrun

/-! The STEP port (R140, R146). -/

theorem transact_step_next {s t : State} {o : StepOutcome} (h : step s = .next t)
    (hresponse : t.response = some o) : transact s .step = (t, .outcome o) := by
  simp only [transact, h, stepReply, hresponse]

theorem transact_step_latched {s : State} {f : Fault} (h : s.fault = some f) :
    transact s .step = (s, .outcome (.fault f)) := by
  simp only [transact, step_latched s f h, stepReply]

/-- Settles O7: a latched fault is answered as it is, and otherwise the step ends in one of the three ways. -/
theorem everyStepAnswersOneOutcome : Obligations.EveryStepAnswersOneOutcome := by
  intro s
  cases hs : s.fault with
  | some f =>
    refine ⟨s, .fault f, transact_step_latched hs, nofun, nofun, fun g hg => ?_⟩
    cases hg
    exact ⟨hs, nofun⟩
  | none =>
    obtain ⟨t, ht, -, -, ⟨hfault, hcontinues | ⟨r, hstop⟩⟩ | ⟨f, hfault, hraised⟩⟩ := step_ends s hs
    · exact ⟨t, _, transact_step_next ht hcontinues, fun _ => ⟨rfl, hfault.trans hs, ht⟩, nofun, nofun⟩
    · refine ⟨t, _, transact_step_next ht hstop, nofun, fun _ _ => ⟨rfl, hfault.trans hs, ht, ?_⟩, nofun⟩
      rw [step_response_stop ht hstop]
      exact ⟨afterFetch_zero s 1, afterFetch_ip s 1, keepsRegs_afterFetch s 1, keepsMem_afterFetch s 1⟩
    · refine ⟨t, _, transact_step_next ht hraised, nofun, nofun, fun g hg => ?_⟩
      cases hg
      exact ⟨hfault, fun _ => ht⟩

/-- A step that answers a fault has latched it. -/
theorem fault_of_response {s t : State} {f : Fault} (h : step s = .next t)
    (hresponse : t.response = some (.fault f)) : t.fault = some f := by
  obtain ⟨-, -, ⟨-, hcontinues | ⟨r, hstop⟩⟩ | ⟨g, hfault, hraised⟩⟩ := step_next_ends h
  · simp [hcontinues] at hresponse
  · simp [hstop] at hresponse
  · obtain rfl : g = f := by simpa [hraised] using hresponse
    exact hfault

/-- Of the things a transaction can do, only RESET clears the latch (R146). -/
theorem transact_keeps_fault {s : State} {f : Fault} (hs : s.fault = some f) {tr : Transaction}
    (hreset : ∀ size start, tr ≠ .reset size start) : (transact s tr).1.fault = some f := by
  rcases transact_cases s tr with ⟨size, start, htr, -⟩ | h | h | ⟨addr, bs, h⟩ | ⟨i, v, h⟩
  · exact absurd htr (hreset size start)
  · rw [step_latched s f hs] at h
    cases h
  · rw [h, hs]
  · obtain ⟨-, -, hfault, -⟩ := memWriteBytes_fields bs s addr
    rw [h, hfault, hs]
  · rw [h, setReg_fault, hs]

/-- Settles O8: a raised fault is latched as it is answered, and a latched one outlives every transaction but
RESET. -/
theorem faultIsTerminal : Obligations.FaultIsTerminal :=
  ⟨fun _ _ _ _ => fault_of_response, fun s f hs => ⟨step_latched s f hs, transact_step_latched hs,
    fun _ => transact_keeps_fault hs, fun _ _ => rfl⟩⟩

end Sys2Proof.Machine

/-! PROOFS. Reset and its hazards: the stack and the start address that the program must set (R174, R175), the
host's accesses (R177), and the end of a run (R178, R185). -/

namespace Sys2Proof.Machine

/-! The stack after reset (R174). -/

/-- The slot below an sp of 0 is the last 8 addresses, of which MEM_SIZE leaves out at least one. -/
theorem exec_push_of_sp_zero {s : State} (hsp : s.reg spReg = 0) (ia : RegIndex) :
    ∃ t addr, exec (.push (fieldOf ia)) s = .next t ∧ t.reg spReg = 0xFFFFFFFFFFFFFFF8 ∧
      Latches t (.outOfBoundsAddress addr) := by
  have hslot : pushAddress s = 0xFFFFFFFFFFFFFFF8 := by
    rw [pushAddress, hsp]
    rfl
  have hout : (s.setReg spReg (pushAddress s)).memSize.toNat < (pushAddress s).toNat + 8 := by
    rw [hslot]
    exact s.memSize.isLt
  rw [exec_push, memWrite8_outOfBounds hout]
  refine ⟨_, _, rfl, ?_, rfl, rfl⟩
  rw [latch_reg, memWrite8_reg, reg_setReg_same, hslot]

/-- Settles O3: PUSH stores in the slot below 0, which is past the end of memory, and POP reads at sp. -/
theorem stackNeedsInitialising : Obligations.StackNeedsInitialising := by
  refine ⟨fun size start => reg_resetWith size start spReg,
    fun s ia hsp => ⟨exec_push_of_sp_zero hsp ia, fun hsize => ?_⟩⟩
  have hzero : (s.reg spReg).toNat = 0 := by rw [hsp]; rfl
  have hin : accessInBounds s (s.reg spReg) := by
    rw [accessInBounds]
    omega
  obtain ⟨-, -, hpops⟩ := popLoadsFromSp
  obtain ⟨t, v, ht, hbytes, hother, hself, hcontinues, -⟩ := (hpops s ia).1 hin
  refine ⟨t, v, ht, hcontinues, fun k hk => ?_, ?_⟩
  · rw [hbytes k hk, hzero, Nat.zero_add]
  · split_ifs with h
    · rw [h, hself h]
    · exact (hother h).1

/-! The start address (R175). -/

/-- Settles O4: at reset x[1] is the start address, and a step with no byte at x[1] raises there. -/
theorem startOutsideMemoryFaults : Obligations.StartOutsideMemoryFaults := by
  refine ⟨fun size start hout => ?_, fun s hs hsize => ⟨_, step_outOfBounds hs (by simp [hsize]), rfl, rfl⟩⟩
  have hip : (State.resetWith size start).reg ipReg = start := reg_resetWith size start ipReg
  have hstep := step_outOfBounds (s := State.resetWith size start) rfl (by rwa [hip])
  rw [hip] at hstep
  exact ⟨_, hstep, rfl, rfl⟩

/-! The memory port: a memory primitive's answer is the host's (R177). -/

section
variable {s t : State} {addr v : Word} {b : Byte} {f : Fault}

theorem transact_hostRead8_of_ok (h : s.memRead1 addr.toNat = .ok b) :
    transact s (.hostRead8 addr) = (s, .byte b) := by
  simp only [transact, hostRead8, h, readReply]

theorem transact_hostRead8_of_error (h : s.memRead1 addr.toNat = .error f) :
    transact s (.hostRead8 addr) = (s, .refused (hostRefusal f)) := by
  simp only [transact, hostRead8, h, readReply]

theorem transact_hostRead64_of_ok (h : s.memRead8 addr = .ok v) :
    transact s (.hostRead64 addr) = (s, .word v) := by
  simp only [transact, hostRead64, h, readReply]

theorem transact_hostRead64_of_error (h : s.memRead8 addr = .error f) :
    transact s (.hostRead64 addr) = (s, .refused (hostRefusal f)) := by
  simp only [transact, hostRead64, h, readReply]

theorem transact_hostWrite8_of_none (h : s.memWrite1 addr.toNat b = (t, none)) :
    transact s (.hostWrite8 addr b) = (t, .done) := by
  simp only [transact, hostWrite8, h, hostWritten, writeReply]

theorem transact_hostWrite8_of_some (h : s.memWrite1 addr.toNat b = (t, some f)) :
    transact s (.hostWrite8 addr b) = (s, .refused (hostRefusal f)) := by
  simp only [transact, hostWrite8, h, hostWritten, writeReply]

theorem transact_hostWrite64_of_none (h : s.memWrite8 addr v = (t, none)) :
    transact s (.hostWrite64 addr v) = (t, .done) := by
  simp only [transact, hostWrite64, h, hostWritten, writeReply]

theorem transact_hostWrite64_of_some (h : s.memWrite8 addr v = (t, some f)) :
    transact s (.hostWrite64 addr v) = (s, .refused (hostRefusal f)) := by
  simp only [transact, hostWrite64, h, hostWritten, writeReply]

end

theorem memRead8_outOfBounds {s : State} {addr : Word} (h : s.memSize.toNat < addr.toNat + 8) :
    s.memRead8 addr = .error (.outOfBoundsAddress (BitVec.ofNat 64 (max addr.toNat s.memSize.toNat))) := by
  rcases memRead8_cases s addr with ⟨hin, -⟩ | ⟨-, hread⟩
  · omega
  · exact hread

/-- Both 8-byte host accesses are refused at the first missing address, and a straddling write changes no byte
(D9). -/
theorem transact_host64_refused {s : State} {addr : Word} (h : ¬ accessInBounds s addr) (v : Word) :
    ∃ r, transact s (.hostRead64 addr) = (s, .refused r) ∧
      transact s (.hostWrite64 addr v) = (s, .refused r) := by
  have hout : s.memSize.toNat < addr.toNat + 8 := by
    rw [accessInBounds] at h
    omega
  exact ⟨_, transact_hostRead64_of_error (memRead8_outOfBounds hout),
    transact_hostWrite64_of_some (memWrite8_outOfBounds hout v)⟩

theorem hostRefusal_outOfBounds_toNat (addr : Word) :
    hostRefusal (.outOfBoundsAddress (BitVec.ofNat 64 addr.toNat)) = .hostAddressOutOfRange addr := by
  rw [hostRefusal, BitVec.ofNat_toNat, BitVec.setWidth_eq]

/-! The register port (R177). -/

section
variable (s : State) {i : Nat} (v : Word)

theorem transact_hostReadReg_named (h : i < 13) :
    transact s (.hostReadReg i) = (s, .word (s.reg ⟨i, h⟩)) := by
  simp only [transact, hostReadReg, dif_pos h, readReply]

theorem transact_hostReadReg_unnamed (h : 13 ≤ i) :
    transact s (.hostReadReg i) = (s, .refused (.hostRegisterIndex i)) := by
  simp only [transact, hostReadReg, dif_neg (Nat.not_lt.2 h), readReply]

theorem transact_hostWriteReg_named (h : i < 13) :
    transact s (.hostWriteReg i v) = (s.setReg ⟨i, h⟩ v, .done) := by
  simp only [transact, hostWriteReg, dif_pos h, writeReply]

theorem transact_hostWriteReg_unnamed (h : 13 ≤ i) :
    transact s (.hostWriteReg i v) = (s, .refused (.hostRegisterIndex i)) := by
  simp only [transact, hostWriteReg, dif_neg (Nat.not_lt.2 h), writeReply]

end

/-- Settles O59: the memory port answers what the memory primitives answer, and drops the bytes a straddling
write stored; the register port tests its index once. -/
theorem hostAccess : Obligations.HostAccess := by
  intro s addr v b i
  obtain ⟨hbyteIn, hbyteOut⟩ := byteAccess s addr.toNat b
  refine ⟨fun h => ?_, fun h => ?_, fun h => ⟨?_, ?_⟩, fun h => transact_host64_refused h v,
    fun h => ⟨transact_hostReadReg_named s h, _, transact_hostWriteReg_named s v h, reg_setReg_same .., ?_,
      keepsMem_setReg .., rfl⟩,
    fun h => ⟨transact_hostReadReg_unnamed s h, transact_hostWriteReg_unnamed s v h⟩⟩
  · obtain ⟨hread, t, hwrite, hframe⟩ := hbyteIn h
    exact ⟨transact_hostRead8_of_ok hread, t, transact_hostWrite8_of_none hwrite, hframe⟩
  · obtain ⟨hread, hwrite⟩ := hbyteOut h
    rw [transact_hostRead8_of_error hread, transact_hostWrite8_of_some hwrite, hostRefusal_outOfBounds_toNat]
    exact ⟨rfl, rfl⟩
  · obtain ⟨w, hread, hbytes⟩ := (eightByteRead s addr).1 h
    exact ⟨w, transact_hostRead64_of_ok hread, hbytes⟩
  · obtain ⟨t, hwrite, hframe⟩ := (eightByteWrite s addr v).1 h
    exact ⟨t, transact_hostWrite64_of_none hwrite, hframe⟩
  · exact keepsRegs_setReg (keepsRegs_refl s _) (List.mem_singleton.2 rfl) v

/-! The end of a run (R178, R185). -/

/-- A run of one more step: one that has ended is at the same end. -/
def RunEnd.oneMore : RunEnd → RunEnd
  | .running u => run 1 u
  | e => e

/-- The last step of a run, where `run` unfolds to its first. -/
theorem run_succ (n : Nat) (s : State) : run (n + 1) s = (run n s).oneMore := by
  induction n generalizing s with
  | zero => rfl
  | succ n ih =>
    unfold run
    split
    · exact ih _
    all_goals rfl

/-- Everything a run of one step can do: each end has its answer on the STEP port, and only a fault ends it with
the latch set. -/
theorem run_one_cases (s : State) :
    (∃ t, run 1 s = .running t ∧ t.response = some .continues ∧ t.fault = none) ∨
    (∃ t, run 1 s = .halted t ∧ t.response = some (.stop .halt) ∧ t.fault = none) ∨
    (∃ r t, run 1 s = .stopped r t ∧ r ≠ .halt ∧ t.response = some (.stop r) ∧ t.fault = none) ∨
    ∃ f, run 1 s = .faulted f ∧ (transact s .step).2 = .outcome (.fault f) := by
  cases hs : s.fault with
  | some f =>
    have h := transact_step_latched hs
    exact .inr (.inr (.inr ⟨f, by simp only [run, h], by rw [h]⟩))
  | none =>
    obtain ⟨t, ht, -, -, ⟨hfault, hcontinues | ⟨r, hstop⟩⟩ | ⟨f, -, hraised⟩⟩ := step_ends s hs
    · have h := transact_step_next ht hcontinues
      exact .inl ⟨t, by simp only [run, h], hcontinues, hfault.trans hs⟩
    · have h := transact_step_next ht hstop
      by_cases hr : r = .halt
      · subst hr
        exact .inr (.inl ⟨t, by simp only [run, h], hstop, hfault.trans hs⟩)
      · exact .inr (.inr (.inl ⟨r, t, by simp only [run, h], hr, hstop, hfault.trans hs⟩))
    · have h := transact_step_next ht hraised
      exact .inr (.inr (.inr ⟨f, by simp only [run, h], by rw [h]⟩))

/-- What an end of a run of n steps from a state says of the run's last answer. -/
def EndsWithItsAnswer (n : Nat) (s : State) : RunEnd → Prop
  | .halted t => t.response = some (.stop .halt) ∧ t.fault = none
  | .stopped r t => r ≠ .halt ∧ t.response = some (.stop r) ∧ t.fault = none
  | .running t => n = 0 ∨ t.response = some .continues ∧ t.fault = none
  | .faulted f => ∃ m u, m < n ∧ run m s = .running u ∧ (transact u .step).2 = .outcome (.fault f)
  | .noOutcome _ => False

theorem run_endsWithItsAnswer (n : Nat) (s : State) : EndsWithItsAnswer n s (run n s) := by
  induction n with
  | zero => exact .inl rfl
  | succ n ih =>
    rw [run_succ]
    cases hrun : run n s with
    | running u =>
      rw [RunEnd.oneMore]
      rcases run_one_cases u with ⟨t, h, hend⟩ | ⟨t, h, hend⟩ | ⟨r, t, h, hend⟩ | ⟨f, h, hfault⟩ <;> rw [h]
      · exact .inr hend
      · exact hend
      · exact hend
      · exact ⟨n, u, Nat.lt_succ_self n, hrun, hfault⟩
    | faulted f =>
      rw [hrun] at ih
      obtain ⟨m, u, hm, hu⟩ := ih
      exact ⟨m, u, Nat.lt_succ_of_lt hm, hu⟩
    | halted t | stopped r t | noOutcome t =>
      rw [hrun] at ih
      exact ih

theorem oneMore_of_ended {e : RunEnd} (h : ∀ t, e ≠ .running t) : e.oneMore = e := by
  cases e with
  | running t => exact absurd rfl (h t)
  | halted t | stopped r t | faulted f | noOutcome t => rfl

theorem run_add_of_ended {n : Nat} {s : State} (h : ∀ t, run n s ≠ .running t) (k : Nat) :
    run (n + k) s = run n s := by
  induction k with
  | zero => rfl
  | succ k ih => rw [← Nat.add_assoc, run_succ, ih, oneMore_of_ended h]

/-- Settles O60: by induction on the bound, a run's last step gives its end, and an ended run takes no more. -/
theorem runEndsAtTheFirstStop : Obligations.RunEndsAtTheFirstStop := by
  intro n s
  have hend {e : RunEnd} (h : run n s = e) : EndsWithItsAnswer n s e := h ▸ run_endsWithItsAnswer n s
  exact ⟨fun _ => hend, fun _ _ => hend, fun _ => hend, fun _ => hend, fun _ => hend,
    fun k h => run_add_of_ended h k⟩

end Sys2Proof.Machine
